-- ==== Sys2Proof/Word.lean ====
section
/-! DEFINITION. The sizes of value the codec computes with (00_scope.md R16): bytes, nibbles and 16-bit words.
Every one is unsigned; no rule sign-extends (R10). -/

namespace Sys2Proof

/-- A byte: 8 bits, unsigned (R10). -/
abbrev Byte := BitVec 8

/-- A word: 16 bits, unsigned (R10): the checksum and its input words. -/
abbrev Word := BitVec 16

/-- A 4-bit nibble, holding one BCD digit (R16). -/
abbrev Nibble := BitVec 4

end Sys2Proof
end

