-- ==== Sys2Proof/Syntax.lean ====
section
/-! DEFINITION. The syntax of the codec, whole: its commands (30_encoding.md R84, one constructor per row of the opcode
table), the fields of a command byte (R80), the locations of the register map (10_state.md R23), and the host
assembly of 30_encoding.md R87 to R89. -/

namespace Sys2Proof

/-- The commands. None has an operand field: the operands are the fixed input registers each rule names (R81), and
the EMU bit tells the two rows of ENCODE apart (R84). -/
inductive Instr where
  /-- VALIDATE, byte 0x01: 40_bcd.md R104. -/
  | validate
  /-- BCDPACK, byte 0x02: 40_bcd.md R105. -/
  | bcdpack
  /-- BCDUNPACK, byte 0x03: 40_bcd.md R106. -/
  | bcdunpack
  /-- CSUM, byte 0x04: 41_checksum.md R131. -/
  | csum
  /-- ILV, byte 0x05: 42_interleave.md R152. -/
  | ilv
  /-- DILV, byte 0x06: 42_interleave.md R153. -/
  | dilv
  /-- ENCODE.PLAIN, byte 0x07: 43_rom_image.md R173 with EMU = 0. -/
  | encodePlain
  /-- ENCODE.EMU, byte 0x87: 43_rom_image.md R173 with EMU = 1. -/
  | encodeEmu
  /-- DECODE, byte 0x08: 43_rom_image.md R186. -/
  | decode
  deriving DecidableEq, Repr

/-- The fields of a command byte (30_encoding.md R80, 10_state.md R24). -/
structure CmdFields where
  /-- Bit 7: emulator mode. -/
  emu : Bool
  /-- Bits 6:4: reserved. -/
  rsv : BitVec 3
  /-- Bits 3:0: the operation code. -/
  op : BitVec 4
  deriving DecidableEq, Repr

/-- One location of the register map (10_state.md R23). -/
inductive Loc where
  | cmd
  | status
  | errcode
  | result
  | serLen
  | inLen
  | outLen
  | csumLo
  | csumHi
  | storedLo
  | storedHi
  | serChar (i : Fin 12)
  | digOut (i : Fin 12)
  | footerOut (i : Fin 8)
  | inBuf (i : Fin 64)
  | outBuf (i : Fin 64)
  | reserved
  deriving DecidableEq, Repr

/-- The access codes of the register map (10_state.md R23). -/
inductive Access where
  /-- RW: the host may read and write. -/
  | rw
  /-- RO: the host may read; a host write is ignored. -/
  | ro
  /-- RSV: reads 0x00; a host write is ignored. -/
  | rsv
  deriving DecidableEq, Repr

/-- The register names that may stand for an address in a host program (30_encoding.md R87). An array's name stands
for the address of its element 0. -/
inductive RegName where
  | cmd | status | errcode | result | serLen | inLen | outLen | csumLo | csumHi | storedLo | storedHi
  | serChar | digOut | footerOut | inBuf | outBuf
  deriving DecidableEq, Repr

/-- A host variable `$x`, by number (30_encoding.md R87). -/
abbrev HostVar := Nat

/-- A label: one the program writes, or the fresh one a pseudo-instruction of source line `n` makes (R89). -/
inductive Label where
  | named (n : Nat)
  | fresh (n : Nat)
  deriving DecidableEq, Repr

/-- Host expressions: numbers, register names and host variables, with the operators of 00_scope.md R11 and `+`, `-`
on naturals (30_encoding.md R87). -/
inductive HostExpr where
  | num (v : Nat)
  | reg (r : RegName)
  | var (x : HostVar)
  | add (a b : HostExpr)
  | sub (a b : HostExpr)
  | xor (a b : HostExpr)
  | or (a b : HostExpr)
  | and (a b : HostExpr)
  | shl (a b : HostExpr)
  | shr (a b : HostExpr)
  | div (a b : HostExpr)
  | mod (a b : HostExpr)
  | pow (a b : HostExpr)
  | rotl16 (a : HostExpr)
  | ceilHalf (a : HostExpr)
  deriving DecidableEq, Repr

/-- Host conditions (30_encoding.md R87): `=`, `!=`, `<`, and the test `(e & m) != 0`. -/
inductive HostCond where
  | eq (a b : HostExpr)
  | ne (a b : HostExpr)
  | lt (a b : HostExpr)
  | test (e m : HostExpr)
  deriving DecidableEq, Repr

/-- The base statements of the host assembly (30_encoding.md R87). `wr` and `rd` are each one bus transaction; the
others the codec never sees. -/
inductive HostStmt where
  | wr (addr val : HostExpr)
  | rd (addr : HostExpr) (dst : HostVar)
  | label (l : Label)
  | assign (x : HostVar) (e : HostExpr)
  | ifGoto (c : HostCond) (l : Label)
  | goto (l : Label)
  | halt
  deriving DecidableEq, Repr

/-- A source line of a host program: a base statement, or a pseudo-instruction of 30_encoding.md R88 and R89. -/
inductive HostSrc where
  | base (st : HostStmt)
  | cmd (i : Instr)
  | cmdRaw (v : Byte)
  | wait
  | wrser (digits : List (Fin 10))
  | wrin (bytes : List Byte)
  | rdout (dst : HostVar)
  | run (i : Instr)
  deriving DecidableEq, Repr

end Sys2Proof
end

