-- ==== Sys2Proof/WellFormed.lean ====
section
/-! DEFINITION. What the spec asks of a command byte's fields (30_encoding.md R80, R82) and of a host program (R87, R89)
before either has a meaning. Every check is a Bool. A term of `Instr` has no field that could be wrong: its check is
that of the fields it stands for. -/

namespace Sys2Proof

/-- Bits 6:4 are reserved and must be 000 (R80). -/
def CmdFields.rsvOk (f : CmdFields) : Bool := f.rsv == 0#3

/-- The operation code is one of 0x1 to 0x8 (R82). -/
def CmdFields.opOk (f : CmdFields) : Bool := decide (1 ≤ f.op.toNat ∧ f.op.toNat ≤ 8)

/-- EMU is legal only with OP = 0x7 (R80). -/
def CmdFields.emuOk (f : CmdFields) : Bool := !f.emu || f.op == 7#4

/-- A well-formed command byte: all three of R82's checks pass. -/
def CmdFields.wf (f : CmdFields) : Bool := f.rsvOk && f.opOk && f.emuOk

/-- The fields of each row of the opcode table (R84, R85). -/
def Instr.fields : Instr → CmdFields
  | .validate => ⟨false, 0, 1⟩
  | .bcdpack => ⟨false, 0, 2⟩
  | .bcdunpack => ⟨false, 0, 3⟩
  | .csum => ⟨false, 0, 4⟩
  | .ilv => ⟨false, 0, 5⟩
  | .dilv => ⟨false, 0, 6⟩
  | .encodePlain => ⟨false, 0, 7⟩
  | .encodeEmu => ⟨true, 0, 7⟩
  | .decode => ⟨false, 0, 8⟩

/-- An instruction is well formed when its fields are. -/
def Instr.wf (i : Instr) : Bool := i.fields.wf

/-- A source line is well formed: `wrser` takes at most 12 digits and `wrin` at most 64 bytes (R89). The check is for the
program's writer: the machine runs an ill-formed line all the same (log entry 14). -/
def HostSrc.wf : HostSrc → Bool
  | .wrser digits => decide (digits.length ≤ 12)
  | .wrin bytes => decide (bytes.length ≤ 64)
  | .base _ => true
  | .cmd i => i.wf
  | .cmdRaw _ => true
  | .wait => true
  | .rdout _ => true
  | .run i => i.wf

/-- The labels a program defines, in order. -/
def HostStmt.labels (p : List HostStmt) : List Label :=
  p.filterMap fun st => match st with
    | .label l => some l
    | _ => none

/-- The labels a program jumps to. -/
def HostStmt.targets (p : List HostStmt) : List Label :=
  p.filterMap fun st => match st with
    | .goto l => some l
    | .ifGoto _ l => some l
    | _ => none

/-- A host program's jumps are well formed: no label is defined twice, and each target is defined (R87). The machine does
not consult it: only a jump to such a label stops (log entries 7 and 14). -/
def HostStmt.jumpsWf (p : List HostStmt) : Bool :=
  decide ((HostStmt.labels p).Nodup) && (HostStmt.targets p).all fun l => (HostStmt.labels p).contains l

end Sys2Proof
end

