-- ==== Sys2Proof/Decode.lean ====
section
/-! DEFINITION. The command decoder (30_encoding.md R82, total on all 256 byte values, rejecting by name) and the
encoder (R85). -/

namespace Sys2Proof

/-- Why a byte is no command: the three raises of R82, and the end of the bytes. -/
inductive DecodeError where
  /-- Bits 6:4 are not 000. -/
  | reservedBits
  /-- The operation code is not one of 0x1 to 0x8. -/
  | badOpcode
  /-- EMU = 1 with an operation other than ENCODE. -/
  | emuWithoutEncode
  /-- There is no byte to decode. -/
  | noByte
  deriving DecidableEq, Repr

/-- The fields of a command byte (R80): `op = c[3:0]`, `rsv = c[6:4]`, `emu = c[7]`. -/
def cmdFields (c : Byte) : CmdFields where
  emu := c.getLsbD 7
  rsv := c.extractLsb' 4 3
  op := c.extractLsb' 0 4

/-- The opcode map (R84), `emu` passed on to ENCODE. -/
def dispatchOp (op : BitVec 4) (emu : Bool) : Option Instr :=
  match op.toNat with
  | 1 => some .validate
  | 2 => some .bcdpack
  | 3 => some .bcdunpack
  | 4 => some .csum
  | 5 => some .ilv
  | 6 => some .dilv
  | 7 => some (if emu then .encodeEmu else .encodePlain)
  | 8 => some .decode
  | _ => none

/-- The complete decoder of R82, its checks in the spec's order. -/
def decodeByte (c : Byte) : Except DecodeError Instr :=
  let f := cmdFields c
  if f.rsv ≠ 0 then .error .reservedBits
  else match dispatchOp f.op f.emu with
    | none => .error .badOpcode
    | some i => if f.emu ∧ f.op ≠ 7 then .error .emuWithoutEncode else .ok i

/-- Decoding a byte sequence: one command and the bytes after it. Every command is one byte long (R80, R86). -/
def decodeBytes : List Byte → Except DecodeError (Instr × List Byte)
  | [] => .error .noByte
  | c :: rest => match decodeByte c with
    | .ok i => .ok (i, rest)
    | .error e => .error e

/-- The command byte of each row (R85: the pattern column; ENCODE's `e` is the EMU bit). -/
def encode : Instr → Byte
  | .validate => 0b00000001
  | .bcdpack => 0b00000010
  | .bcdunpack => 0b00000011
  | .csum => 0b00000100
  | .ilv => 0b00000101
  | .dilv => 0b00000110
  | .encodePlain => 0b00000111
  | .encodeEmu => 0b10000111
  | .decode => 0b00001000

/-- What the decoder reads from a row of the opcode table. Every command has 8 bits and no operand bytes (R80), so a
row of any other width is none of this codec's. -/
def decodeTableWord (nbits w : Nat) : Option Instr :=
  if nbits = 8 then
    match decodeBytes [BitVec.ofNat 8 w] with
    | .ok (i, _) => some i
    | .error _ => none
  else none

end Sys2Proof
end

