-- ==== Sys2Proof/Config.lean ====
section
/-! DEFINITION. The open parameters and free values of the spec. Each is `opaque` with no body: nothing in Lean can
evaluate one, so a statement that mentions one holds for every value of it.
LATENCY, the other open parameter (00_scope.md R9), is not a number here: `State.turns` says when the engine moves
(log entry 2). -/

namespace Sys2Proof.Config

/-- What `rdata` shows in the cycle after the host asserted `we` and `re` together: "any value"
(20_memory.md R63, 93 I10). The argument is the draw counter `State.draws`. -/
opaque freeRdata : Nat → Byte

/-- The checksum of a sequence of odd length, which the spec does not define (41_checksum.md R130, 93 I1): the
accumulator after the last whole word, and the byte left over. No command reaches it. -/
opaque oddChecksum : Word → Byte → Word

/-- The platform's base address of the codec's 256-byte register window (20_memory.md R70, 92 D3: OPEN). -/
opaque codecBase : Nat

/-- A host expression `a - b` on naturals with `a < b` (30_encoding.md R87 gives no result there). -/
opaque subBelowZero : Nat → Nat → Nat

/-- A host expression `a div 0` (00_scope.md R11 gives no result there). -/
opaque divByZero : Nat → Nat

/-- A host expression `a mod 0` (00_scope.md R11 gives no result there). -/
opaque modByZero : Nat → Nat

/-- The value of a host variable that no statement has assigned yet (30_encoding.md R87 gives none). -/
opaque unassignedVar : Nat → Nat

end Sys2Proof.Config
end

