-- ==== Sys2Proof/Machine/Constants.lean ====
section
/-! DEFINITION. The constants of the codec (00_scope.md R7, R8, R9). They are not state (10_state.md R45). -/

namespace Sys2Proof.Machine

/-- SERIAL_DIGITS (R7); also SER_CHARS, the number of character slots (R9). -/
def serialDigits : Nat := 12

/-- BUF_BYTES, the size of IN_BUF and of OUT_BUF (R9). -/
def bufBytes : Nat := 64

/-- BCD_BYTES (R7). -/
def bcdBytes : Nat := 6

/-- CHECKSUM_INIT (R7). -/
def checksumInit : Word := 0xFFFF

/-- FILL_BYTE, inserted after every data byte (R7). -/
def fillByte : Byte := 0x00

/-- PLAIN_IMAGE_BYTES (R8, 90_conflicts.md C1). -/
def plainImageBytes : Nat := 32

/-- IL_IMAGE_BYTES (R8, 90_conflicts.md C1). -/
def ilImageBytes : Nat := 64

/-- FOOTER, hardwired in the engine (10_state.md R39, 43_rom_image.md R171). -/
def footer : List Byte := [0x00, 0xFF, 0x55, 0xAA, 0xFF, 0x00, 0xAF, 0x50]

end Sys2Proof.Machine
end

