-- ==== Sys2Proof/Machine/Bits.lean ====
section
/-! DEFINITION. Bytes, nibbles and words taken apart and put together (00_scope.md R10, R11; 20_memory.md R64, R65). -/

namespace Sys2Proof.Machine

/-- Bits 7:0 of a word: the byte at the lower address (20_memory.md R64). -/
def loByte (w : Word) : Byte := w.extractLsb' 0 8

/-- Bits 15:8 of a word: the byte at the address one above (20_memory.md R64). -/
def hiByte (w : Word) : Byte := w.extractLsb' 8 8

/-- `zext_16(lo) | zext_16(hi) << 8`: a little-endian word (20_memory.md R65). -/
def wordOf (lo hi : Byte) : Word := lo.zeroExtend 16 ||| (hi.zeroExtend 16 <<< 8)

/-- Bits 7:4 of a byte, the more significant digit (R16). -/
def hiNibble (b : Byte) : Nibble := b.extractLsb' 4 4

/-- Bits 3:0 of a byte, the less significant digit (R16). -/
def loNibble (b : Byte) : Nibble := b.extractLsb' 0 4

/-- `(hi << 4) | lo`, 8 bits (40_bcd.md R102). -/
def packByte (hi lo : Nibble) : Byte := (hi.zeroExtend 8 <<< 4) ||| lo.zeroExtend 8

/-- `zext_8` of a one-bit verdict (R16). -/
def bitByte (b : Bool) : Byte := if b then 1 else 0

/-- `rotl16(a) = ((a << 1) | (a >> 15)) & 0xFFFF` (R11). -/
def rotl16 (a : Word) : Word := (a <<< 1) ||| (a >>> 15)

/-- A byte array of `n` bytes all written 0x00 and then, from index 0, with the bytes given (10_state.md R38). -/
def fillBytes (n : Nat) (bytes : List Byte) : Vector Byte n := Vector.ofFn fun i => bytes.getD i.val 0

end Sys2Proof.Machine
end

