-- ==== Sys2Proof/Machine/State.lean ====
section
/-! DEFINITION. The machine's state as plain data: every register and byte array of 10_state.md R23, and beside them
what stands outside the codec and drives it (the host and the bus). -/

namespace Sys2Proof.Machine

/-- The error codes a command can raise (60_exceptions.md R220). -/
inductive CmdError where
  /-- 1: a command byte that is no command. -/
  | illegalCmd
  /-- 2: BCDPACK or ENCODE on an invalid serial. -/
  | validation
  /-- 3: the input length is outside the command's range. -/
  | length
  /-- 4: DECODE on a length that does not fit the detected mode. -/
  | format
  deriving DecidableEq, Repr

/-- What the host and the platform put on the codec's input ports in one clock cycle (20_memory.md R60). -/
structure Ports where
  /-- Synchronous reset, active high. -/
  rst : Bool
  /-- Write strobe. -/
  we : Bool
  /-- Read strobe. -/
  re : Bool
  /-- Register address. -/
  addr : Byte
  /-- Write data. -/
  wdata : Byte
  deriving DecidableEq, Repr

/-- One entry of the total order of steps (20_memory.md R72): who moves. -/
inductive Turn where
  /-- The host program's next statement. -/
  | host
  /-- The engine's completion step, if a command is in flight. -/
  | engine
  /-- A clock cycle with these input ports: a transaction, an idle cycle or a reset. -/
  | cycle (p : Ports)
  deriving DecidableEq, Repr

/-- The host: its program, the index of its next statement, and the variables it has assigned, sorted by number with
no repeats. It is outside the codec (20_memory.md R70). -/
structure HostSide where
  prog : List HostStmt
  pos : Nat
  vars : List (HostVar × Nat)
  deriving DecidableEq, Repr

/-- The whole machine. The first sixteen fields are the codec's only state (10_state.md R21, R44). -/
structure State where
  /-- CMD, 0x00 (R24). -/
  cmd : Byte
  /-- STATUS, 0x01 (R25). -/
  status : Byte
  /-- ERRCODE, 0x02 (R26). -/
  errcode : Byte
  /-- RESULT, 0x03 (R27). -/
  result : Byte
  /-- SER_LEN, 0x04 (R28). -/
  serLen : Byte
  /-- IN_LEN, 0x05 (R29). -/
  inLen : Byte
  /-- OUT_LEN, 0x06 (R30). -/
  outLen : Byte
  /-- CSUM_LO, 0x08 (R31). -/
  csumLo : Byte
  /-- CSUM_HI, 0x09 (R31). -/
  csumHi : Byte
  /-- STORED_LO, 0x0A (R32). -/
  storedLo : Byte
  /-- STORED_HI, 0x0B (R32). -/
  storedHi : Byte
  /-- SER_CHAR[0..11], 0x10 + i (R34). -/
  serChar : Vector Byte 12
  /-- DIG_OUT[0..11], 0x20 + i (R35). -/
  digOut : Vector Byte 12
  /-- FOOTER_OUT[0..7], 0x30 + i (R36). -/
  footerOut : Vector Byte 8
  /-- IN_BUF[0..63], 0x40 + i (R37). -/
  inBuf : Vector Byte 64
  /-- OUT_BUF[0..63], 0x80 + i (R38). -/
  outBuf : Vector Byte 64
  /-- The `rdata` port (20_memory.md R60): the byte read in the last cycle, none where it is not valid. -/
  rdata : Option Byte
  /-- Who moves next, first entry first (log entry 2). The model's own field. -/
  turns : List Turn
  /-- The host (20_memory.md R70). The model's own field: nothing of it is inside the codec. -/
  host : HostSide
  /-- How many free values of `rdata` have been drawn (R63, log entry 4). The model's own field. -/
  draws : Nat
  deriving DecidableEq, Repr

/-- Why the machine stops with a fault. Both are errors of a host program, which the spec asks a program not to make;
no command and no bus cycle raises one. -/
inductive Fault where
  /-- Raised by the host's `wr` or `rd` whose address or value does not evaluate to 0x00 to 0xFF (30_encoding.md R87).
  Safe: there is no such transaction. -/
  | hostOperandRange
  /-- Raised by the host's `goto` to a label the program does not define exactly once (30_encoding.md R87).
  Safe: the spec gives no statement to go on with. -/
  | hostLabel
  deriving DecidableEq, Repr

/-- Why the machine has no meaning for an instruction. -/
inductive Refusal where
  /-- Raised by an arm of `exec` whose instruction has no meaning yet; no arm is left so. Safe. -/
  | notModelled (mnemonic : String)
  deriving DecidableEq, Repr

/-- The outcomes of a step of this machine. -/
abbrev Outcome := Host.Outcome State Fault Refusal

/-- The machine right after reset (70_reset_and_hazards.md R251): every location 0x00. The host has no program, no
turn is scheduled and `rdata` is not valid: the model's own fields (log entries 2 to 5). -/
def State.reset : State where
  cmd := 0
  status := 0
  errcode := 0
  result := 0
  serLen := 0
  inLen := 0
  outLen := 0
  csumLo := 0
  csumHi := 0
  storedLo := 0
  storedHi := 0
  serChar := Vector.replicate 12 0
  digOut := Vector.replicate 12 0
  footerOut := Vector.replicate 8 0
  inBuf := Vector.replicate 64 0
  outBuf := Vector.replicate 64 0
  rdata := none
  turns := []
  host := { prog := [], pos := 0, vars := [] }
  draws := 0

end Sys2Proof.Machine
end

