-- ==== Sys2Proof/Machine/Flags.lean ====
section
/-! DEFINITION. The flags: the fields of STATUS (10_state.md R25), the bits of RESULT (R27) and the error codes
(60_exceptions.md R220). A flag is written by the rules named here and by no others (R43). -/

namespace Sys2Proof.Machine

/-- STATUS.BUSY: a command is accepted and not yet completed. -/
def State.busy (s : State) : Bool := s.status.getLsbD 0

/-- STATUS.DONE: the last accepted command has completed. -/
def State.done (s : State) : Bool := s.status.getLsbD 1

/-- STATUS.ERR: the last completed command completed with an error. -/
def State.err (s : State) : Bool := s.status.getLsbD 2

/-- STATUS.WIGN: a host write was ignored because BUSY was 1. -/
def State.wign (s : State) : Bool := s.status.getLsbD 3

/-- STATUS right after acceptance: BUSY = 1, DONE = ERR = WIGN = 0 (R40). -/
def statusAccepted : Byte := 0b00000001

/-- STATUS with `BUSY <- 0` and `DONE <- 1` (R41). -/
def statusCompleted (st : Byte) : Byte := (st &&& 0b11111110) ||| 0b00000010

/-- STATUS with `ERR <- 1` (60_exceptions.md R223). -/
def statusErr (st : Byte) : Byte := st ||| 0b00000100

/-- STATUS with `WIGN <- 1` (R42). -/
def statusWign (st : Byte) : Byte := st ||| 0b00001000

/-- The code of an error, as ERRCODE holds it (60_exceptions.md R220; 0 is NONE). -/
def CmdError.code : CmdError → Byte
  | .illegalCmd => 1
  | .validation => 2
  | .length => 3
  | .format => 4

/-- RESULT of VALIDATE: `zext_8(serial_valid()) << 5`, SER_OK at bit 5 (40_bcd.md R104). -/
def resultValidate (serOk : Bool) : Byte := bitByte serOk <<< 5

/-- RESULT of BCDUNPACK: `zext_8(bcd_ok) << 4`, BCD_OK at bit 4 (40_bcd.md R106). -/
def resultUnpack (bcdOk : Bool) : Byte := bitByte bcdOk <<< 4

/-- RESULT of DECODE's FORMAT branch: MODE_IL only, bit 0 (43_rom_image.md R186). -/
def resultFormat (il : Bool) : Byte := bitByte il

/-- RESULT of a DECODE that completes: MODE_IL, CSUM_OK, FOOTER_OK, VALID and BCD_OK, VALID being CSUM_OK AND FOOTER_OK
(43_rom_image.md R184, R186). -/
def resultDecode (il csumOk footerOk bcdOk : Bool) : Byte :=
  bitByte il ||| bitByte csumOk <<< 1 ||| bitByte footerOk <<< 2 ||| bitByte (csumOk && footerOk) <<< 3
    ||| bitByte bcdOk <<< 4

end Sys2Proof.Machine
end

