-- ==== Sys2Proof/Machine/Ops.lean ====
section
/-! DEFINITION. The named operations over the register map: the map itself, host reads and writes, command acceptance,
the two ends of a completion step (this codec's only exception mechanism, 60_exceptions.md R222, R223, R227), the
writes of the result registers, reset, and one clock cycle of the host bus. -/

namespace Sys2Proof.Machine

/-! ## The register map (10_state.md R23) -/

/-- The location at an address. -/
def locate (a : Byte) : Loc :=
  let n := a.toNat
  if n = 0x00 then .cmd
  else if n = 0x01 then .status
  else if n = 0x02 then .errcode
  else if n = 0x03 then .result
  else if n = 0x04 then .serLen
  else if n = 0x05 then .inLen
  else if n = 0x06 then .outLen
  else if n = 0x08 then .csumLo
  else if n = 0x09 then .csumHi
  else if n = 0x0A then .storedLo
  else if n = 0x0B then .storedHi
  else if h : 0x10 ≤ n ∧ n < 0x1C then .serChar ⟨n - 0x10, by omega⟩
  else if h : 0x20 ≤ n ∧ n < 0x2C then .digOut ⟨n - 0x20, by omega⟩
  else if h : 0x30 ≤ n ∧ n < 0x38 then .footerOut ⟨n - 0x30, by omega⟩
  else if h : 0x40 ≤ n ∧ n < 0x80 then .inBuf ⟨n - 0x40, by omega⟩
  else if h : 0x80 ≤ n ∧ n < 0xC0 then .outBuf ⟨n - 0x80, by omega⟩
  else .reserved

/-- The access code of a location. -/
def locAccess : Loc → Access
  | .cmd => .rw
  | .status => .ro
  | .errcode => .ro
  | .result => .ro
  | .serLen => .rw
  | .inLen => .rw
  | .outLen => .ro
  | .csumLo => .ro
  | .csumHi => .ro
  | .storedLo => .ro
  | .storedHi => .ro
  | .serChar _ => .rw
  | .digOut _ => .ro
  | .footerOut _ => .ro
  | .inBuf _ => .rw
  | .outBuf _ => .ro
  | .reserved => .rsv

/-- The address a register name stands for (30_encoding.md R87); an array's name is its element 0. -/
def regBase : RegName → Nat
  | .cmd => 0x00
  | .status => 0x01
  | .errcode => 0x02
  | .result => 0x03
  | .serLen => 0x04
  | .inLen => 0x05
  | .outLen => 0x06
  | .csumLo => 0x08
  | .csumHi => 0x09
  | .storedLo => 0x0A
  | .storedHi => 0x0B
  | .serChar => 0x10
  | .digOut => 0x20
  | .footerOut => 0x30
  | .inBuf => 0x40
  | .outBuf => 0x80

/-- The register address that an address of the platform's own map reaches, if it lies in the codec's 256-byte window
(20_memory.md R70). -/
def windowAddr (platformAddr : Nat) : Option Byte :=
  if Config.codecBase ≤ platformAddr ∧ platformAddr < Config.codecBase + 256 then
    some (BitVec.ofNat 8 (platformAddr - Config.codecBase))
  else none

/-! ## Host reads and writes -/

/-- The byte a location holds; a reserved location reads 0x00 (10_state.md R33). -/
def readLoc (l : Loc) (s : State) : Byte :=
  match l with
  | .cmd => s.cmd
  | .status => s.status
  | .errcode => s.errcode
  | .result => s.result
  | .serLen => s.serLen
  | .inLen => s.inLen
  | .outLen => s.outLen
  | .csumLo => s.csumLo
  | .csumHi => s.csumHi
  | .storedLo => s.storedLo
  | .storedHi => s.storedHi
  | .serChar i => s.serChar[i.val]
  | .digOut i => s.digOut[i.val]
  | .footerOut i => s.footerOut[i.val]
  | .inBuf i => s.inBuf[i.val]
  | .outBuf i => s.outBuf[i.val]
  | .reserved => 0

/-- `MemRead(addr, 1)` (20_memory.md R61). It is a function of the state and changes nothing. -/
def memRead (a : Byte) (s : State) : Byte := readLoc (locate a) s

/-- `location(addr) <- v` for the RW locations other than CMD; every other location ignores the write (R23, R62). -/
def writeLoc (l : Loc) (v : Byte) (s : State) : State :=
  match l with
  | .serLen => { s with serLen := v }
  | .inLen => { s with inLen := v }
  | .serChar i => { s with serChar := s.serChar.set i.val v }
  | .inBuf i => { s with inBuf := s.inBuf.set i.val v }
  | _ => s

/-- Command acceptance, one atomic step (10_state.md R40). -/
def acceptCommand (c : Byte) (s : State) : State :=
  { s with cmd := c, status := statusAccepted, errcode := 0 }

/-- `MemWrite(addr, 1, v)`, its cases in the spec's order (20_memory.md R62; 10_state.md R42). -/
def memWrite (a v : Byte) (s : State) : State :=
  if s.busy then { s with status := statusWign s.status }
  else if a = 0x00 then acceptCommand v s
  else if locAccess (locate a) = .rw then writeLoc (locate a) v s
  else s

/-! ## The end of a completion step -/

/-- `complete()`: the step ends without error, ERRCODE and ERR as acceptance left them (60_exceptions.md R222), then
`BUSY <- 0` and `DONE <- 1` (10_state.md R41). -/
def completeCmd (s : State) : State := { s with status := statusCompleted s.status }

/-- `raise CmdError(code)`: the step ends with an error (60_exceptions.md R223), then `BUSY <- 0` and `DONE <- 1`
(10_state.md R41). There is no saved state, no vector and no return (R227, R228). -/
def raiseCmdError (e : CmdError) (s : State) : State :=
  { s with errcode := e.code, status := statusCompleted (statusErr s.status) }

/-! ## Writes of the result registers -/

/-- OUT_BUF all written 0x00 and then with a result, OUT_LEN its length (10_state.md R30, R38). -/
def setOut (bytes : List Byte) (s : State) : State :=
  { s with outBuf := fillBytes 64 bytes, outLen := BitVec.ofNat 8 bytes.length }

/-- CSUM_LO and CSUM_HI (10_state.md R31). -/
def setCsum (w : Word) (s : State) : State := { s with csumLo := loByte w, csumHi := hiByte w }

/-- STORED_LO and STORED_HI (10_state.md R32). -/
def setStored (w : Word) (s : State) : State := { s with storedLo := loByte w, storedHi := hiByte w }

/-- All eight bits of RESULT (10_state.md R27). -/
def setResult (v : Byte) (s : State) : State := { s with result := v }

/-- `DIG_OUT[i] <- zext_8(D[i])` for i = 0 to 11 (10_state.md R35). -/
def setDigits (ds : List Nibble) (s : State) : State :=
  { s with digOut := fillBytes 12 (ds.map fun d => d.zeroExtend 8) }

/-- FOOTER_OUT[0..7] (10_state.md R36). -/
def setFooterOut (bytes : List Byte) (s : State) : State := { s with footerOut := fillBytes 8 bytes }

/-! ## The bus -/

/-- Reset: every location of R23 to its reset value, a command in flight abandoned (70_reset_and_hazards.md R250 to
R252). The host's side and the turns to come stand outside the codec. -/
def codecReset (s : State) : State :=
  { State.reset with turns := s.turns, host := s.host, draws := s.draws }

/-- One clock cycle of the host bus (20_memory.md R60): reset, a write, a write with a read (R63: the read data is any
value), a read, or nothing. While `rst = 1` no transaction is performed (70_reset_and_hazards.md R250). -/
def busCycle (p : Ports) (s : State) : State :=
  if p.rst then codecReset s
  else if p.we then
    if p.re then
      { memWrite p.addr p.wdata s with rdata := some (Config.freeRdata s.draws), draws := s.draws + 1 }
    else { memWrite p.addr p.wdata s with rdata := none }
  else if p.re then { s with rdata := some (memRead p.addr s) }
  else { s with rdata := none }

/-- The ports in a cycle with one write transaction. -/
def writePorts (a v : Byte) : Ports := { rst := false, we := true, re := false, addr := a, wdata := v }

/-- The ports in a cycle with one read transaction; `wdata` is not looked at. -/
def readPorts (a : Byte) : Ports := { rst := false, we := false, re := true, addr := a, wdata := 0 }

end Sys2Proof.Machine
end

