-- ==== Sys2Proof/Machine/Operands.lean ====
section
/-! DEFINITION. The operands of the commands: the serial string and the input bytes, as a completion step reads them
(10_state.md R41, R34, R37), and the predicate and the digits over the serial (40_bcd.md R100, R101). -/

namespace Sys2Proof.Machine

/-- A digit is one of the ten ASCII codes 0x30 to 0x39 (10_state.md R34). -/
def isDigit (c : Byte) : Bool := decide (0x30 ≤ c.toNat ∧ c.toNat ≤ 0x39)

/-- The value of a digit character: `c - 0x30`, a nibble (40_bcd.md R101). -/
def digitValue (c : Byte) : Nibble := BitVec.ofNat 4 (c.toNat - 0x30)

/-- SER_CHAR[0..SER_LEN−1] (10_state.md R34). -/
def serialChars (s : State) : List Byte := s.serChar.toList.take s.serLen.toNat

/-- IN_BUF[0..IN_LEN−1] (10_state.md R37). -/
def inputBytes (s : State) : List Byte := s.inBuf.toList.take s.inLen.toNat

/-- `serial_valid()` (40_bcd.md R100). -/
def serialValid (s : State) : Bool :=
  decide (1 ≤ s.serLen.toNat ∧ s.serLen.toNat ≤ serialDigits) && (serialChars s).all isDigit

/-- `padded_digits()`: the serial left-padded with 0 to twelve digits (40_bcd.md R101). -/
def paddedDigits (s : State) : List Nibble :=
  List.replicate (serialDigits - s.serLen.toNat) 0 ++ (serialChars s).map digitValue

end Sys2Proof.Machine
end

