-- ==== Sys2Proof/Machine/Bcd.lean ====
section
/-! DEFINITION. The BCD encoder (40_bcd.md): packing and unpacking, and the commands VALIDATE, BCDPACK and BCDUNPACK. -/

namespace Sys2Proof.Machine

/-- Digits packed in pairs from the front: `pre[i] = (d[2i] << 4) | d[2i+1]` (R102). -/
def packPairs : List Nibble → List Byte
  | hi :: lo :: rest => packByte hi lo :: packPairs rest
  | _ => []

/-- The BCD Block of twelve digits: the pairs in reverse order (R102). -/
def packBlock (ds : List Nibble) : List Byte := (packPairs ds).reverse

/-- `bcd_block()` (R102). -/
def bcdBlock (s : State) : List Byte := packBlock (paddedDigits s)

/-- The nibbles of a BCD Block, the most significant first: the first part of `digits_of` (R103). -/
def blockDigits (b : List Byte) : List Nibble := b.reverse.flatMap fun x => [hiNibble x, loNibble x]

/-- `bcd_ok`, the second part of `digits_of`: every nibble is at most 9 (R103). -/
def digitsOk (ds : List Nibble) : Bool := ds.all fun d => decide (d.toNat ≤ 9)

/-- VALIDATE (R104): the verdict goes to RESULT.SER_OK, and no error is raised. -/
def execValidate (s : State) : Outcome :=
  .next (completeCmd (setResult (resultValidate (serialValid s)) s))

/-- BCDPACK (R105). -/
def execBcdpack (s : State) : Outcome :=
  if serialValid s then .next (completeCmd (setOut (bcdBlock s) s))
  else .next (raiseCmdError .validation s)

/-- BCDUNPACK (R106). -/
def execBcdunpack (s : State) : Outcome :=
  if s.inLen.toNat ≠ bcdBytes then .next (raiseCmdError .length s)
  else
    let ds := blockDigits (inputBytes s)
    .next (completeCmd (setResult (resultUnpack (digitsOk ds)) (setDigits ds s)))

end Sys2Proof.Machine
end

