-- ==== Sys2Proof/Machine/Checksum.lean ====
section
/-! DEFINITION. The rotating-XOR-16 checksum (41_checksum.md) and the command CSUM. -/

namespace Sys2Proof.Machine

/-- One round on a word: XOR, then rotate left by one (R130). -/
def checksumRound (a w : Word) : Word := rotl16 (a ^^^ w)

/-- The rounds over a byte sequence from accumulator `a`, a little-endian word at a time (R130). A last odd byte, for
which the spec defines nothing, gives a free value (log entry 6). -/
def checksumFrom (a : Word) : List Byte → Word
  | lo :: hi :: rest => checksumFrom (checksumRound a (wordOf lo hi)) rest
  | [b] => Config.oddChecksum a b
  | [] => a

/-- `checksum(s)` (R130). -/
def checksum (bytes : List Byte) : Word := checksumFrom checksumInit bytes

/-- CSUM (R131). -/
def execCsum (s : State) : Outcome :=
  if s.inLen.toNat > bufBytes ∨ s.inLen.toNat % 2 ≠ 0 then .next (raiseCmdError .length s)
  else .next (completeCmd (setCsum (checksum (inputBytes s)) s))

end Sys2Proof.Machine
end

