-- ==== Sys2Proof/Machine/Interleave.lean ====
section
/-! DEFINITION. The byte interleaver (42_interleave.md) and the commands ILV and DILV. -/

namespace Sys2Proof.Machine

/-- `interleave(s)`: a 0x00 byte after every byte (R150; 90_conflicts.md C5). -/
def interleave : List Byte → List Byte
  | [] => []
  | b :: rest => b :: fillByte :: interleave rest

/-- `deinterleave(s)`: the even-indexed bytes; an odd last byte is kept (R151). -/
def deinterleave : List Byte → List Byte
  | [] => []
  | [b] => [b]
  | b :: _ :: rest => b :: deinterleave rest

/-- ILV (R152). -/
def execIlv (s : State) : Outcome :=
  if s.inLen.toNat > bufBytes / 2 then .next (raiseCmdError .length s)
  else .next (completeCmd (setOut (interleave (inputBytes s)) s))

/-- DILV (R153). -/
def execDilv (s : State) : Outcome :=
  if s.inLen.toNat > bufBytes then .next (raiseCmdError .length s)
  else .next (completeCmd (setOut (deinterleave (inputBytes s)) s))

end Sys2Proof.Machine
end

