-- ==== Sys2Proof/Machine/RomImage.lean ====
section
/-! DEFINITION. The ROM image formatter (43_rom_image.md): the image ENCODE builds and DECODE checks. -/

namespace Sys2Proof.Machine

/-- The two bytes of a checksum in the image, low byte first (R170). -/
def checksumBytes (c : Word) : List Byte := [loByte c, hiByte c]

/-- `rep3(s)`: three copies, back to back (00_scope.md R11). -/
def rep3 (bytes : List Byte) : List Byte := bytes ++ bytes ++ bytes

/-- The plain image of a BCD Block: three Sequences, then the Footer (R170, R172). -/
def plainImage (blk : List Byte) : List Byte := rep3 (blk ++ checksumBytes (checksum blk)) ++ footer

/-- The interleaved image of a BCD Block: block, checksum and Footer interleaved each on its own (R172, R173). -/
def interleavedImage (blk : List Byte) : List Byte :=
  rep3 (interleave blk ++ interleave (checksumBytes (checksum blk))) ++ interleave footer

/-- ENCODE for the image builder its EMU bit selects (R173). The checksum is that of the block before interleaving. -/
def encodeWith (image : List Byte → List Byte) (s : State) : Outcome :=
  if serialValid s then
    .next (completeCmd (setCsum (checksum (bcdBlock s)) (setOut (image (bcdBlock s)) s)))
  else .next (raiseCmdError .validation s)

/-- ENCODE with EMU = 0 (R173). -/
def execEncodePlain (s : State) : Outcome := encodeWith plainImage s

/-- ENCODE with EMU = 1 (R173). -/
def execEncodeEmu (s : State) : Outcome := encodeWith interleavedImage s

/-- Mode detection: every byte at an odd index is 0x00 (R180). An empty input is interleaved. It is this function that R188
speaks of: false on `plainImage`, whose byte 25 is FOOTER[1] = 0xFF, and true on `interleavedImage`. -/
def isInterleaved : List Byte → Bool
  | _ :: odd :: rest => odd == 0 && isInterleaved rest
  | _ => true

/-- The image length the format check asks for, by the mode detected (R182). -/
def imageBytes (il : Bool) : Nat := if il then ilImageBytes else plainImageBytes

/-- The bytes of an image, or of a part of it, with the fill bytes taken out in interleaved mode (R183). -/
def unfill (il : Bool) (bytes : List Byte) : List Byte := if il then deinterleave bytes else bytes

/-- The footer DECODE expects (R181). -/
def expectedFooter (il : Bool) : List Byte := if il then interleave footer else footer

/-- The trailing bytes DECODE compares with the expected footer (R183, R186). -/
def imageFooter (il : Bool) (img : List Byte) : List Byte := img.drop (img.length - (expectedFooter il).length)

/-- The body: all but the footer (R183, R186). -/
def imageBody (il : Bool) (img : List Byte) : List Byte := img.take (img.length - (expectedFooter il).length)

/-- The first third of the body, deinterleaved when interleaved: copy 1 of the Sequence, and the only one read (R183,
R185). -/
def imageChunk (il : Bool) (img : List Byte) : List Byte :=
  unfill il ((imageBody il img).take ((imageBody il img).length / 3))

/-- The BCD Block of an image (R183). -/
def imageBlock (il : Bool) (img : List Byte) : List Byte := (imageChunk il img).take bcdBytes

/-- The stored checksum of an image, low byte first (R183). At an accepted length the chunk has 8 bytes. -/
def imageStored (il : Bool) (img : List Byte) : Word :=
  wordOf ((imageChunk il img).getD 6 0) ((imageChunk il img).getD 7 0)

/-- The writes of DECODE's FORMAT branch, made before its raise (R186; 60_exceptions.md R223). -/
def decodeFormat (il : Bool) (s : State) : State :=
  setFooterOut [] (setDigits [] (setStored 0 (setCsum 0 (setResult (resultFormat il) s))))

/-- The writes of a DECODE that completes, on an image `img` of mode `il` (R184, R186, R187). -/
def decodeReport (il : Bool) (img : List Byte) (s : State) : State :=
  let blk := imageBlock il img
  let comp := checksum blk
  let stored := imageStored il img
  let ds := blockDigits blk
  let verdicts := resultDecode il (comp == stored) (imageFooter il img == expectedFooter il) (digitsOk ds)
  setFooterOut (unfill il (imageFooter il img))
    (setDigits ds (setStored stored (setCsum comp (setResult verdicts s))))

/-- DECODE (R186): LENGTH before FORMAT (60_exceptions.md R224); a mismatch is a verdict and not an error (R184). -/
def execDecode (s : State) : Outcome :=
  if s.inLen.toNat > bufBytes then .next (raiseCmdError .length s)
  else
    let img := inputBytes s
    let il := isInterleaved img
    if img.length ≠ imageBytes il then .next (raiseCmdError .format (decodeFormat il s))
    else .next (completeCmd (decodeReport il img s))

end Sys2Proof.Machine
end

