-- ==== Sys2Proof/Machine/Dispatch.lean ====
section
/-! DEFINITION. One arm per command: the completion step's dispatch (30_encoding.md R84). -/

namespace Sys2Proof.Machine

def exec (i : Instr) (s : State) : Host.Outcome State Fault Refusal :=
  match i with
  | .validate => Sys2Proof.Machine.execValidate s
  | .bcdpack => Sys2Proof.Machine.execBcdpack s
  | .bcdunpack => Sys2Proof.Machine.execBcdunpack s
  | .csum => Sys2Proof.Machine.execCsum s
  | .ilv => Sys2Proof.Machine.execIlv s
  | .dilv => Sys2Proof.Machine.execDilv s
  | .encodePlain => Sys2Proof.Machine.execEncodePlain s
  | .encodeEmu => Sys2Proof.Machine.execEncodeEmu s
  | .decode => Sys2Proof.Machine.execDecode s

end Sys2Proof.Machine
end

