-- ==== Sys2Proof/Machine/Engine.lean ====
section
/-! DEFINITION. The engine's completion step (10_state.md R41): decode CMD, then perform the command or raise
ILLEGAL_CMD. -/

namespace Sys2Proof.Machine

/-- The completion step. With no command in flight the engine has nothing to do (R20: one completion step for each
accepted command). -/
def engineStep (s : State) : Outcome :=
  if s.busy then
    match decodeByte s.cmd with
    | .ok i => exec i s
    | .error _ => .next (raiseCmdError .illegalCmd s)
  else .next s

end Sys2Proof.Machine
end

