-- ==== Sys2Proof/Machine/HostProgram.lean ====
section
/-! DEFINITION. The host assembly (30_encoding.md R87 to R89): the expansion of its pseudo-instructions, the values of
its expressions, and one step of a host program. -/

namespace Sys2Proof.Machine

/-! ## Pseudo-instructions (R88, R89) -/

/-- `$st`, the variable `wait` reads STATUS into (R89). -/
def varSt : HostVar := 0

/-- `$n`, the variable `rdout` reads OUT_LEN into (R89). -/
def varN : HostVar := 1

/-- `wr CMD, V`: what `cmd M` and `cmd raw V` expand to (R88, R89). -/
def expandCmd (v : Byte) : HostStmt := .wr (.reg .cmd) (.num v.toNat)

/-- `wait`: read STATUS until BUSY = 0 (R89). The label is fresh in each use. -/
def expandWait (lbl : Label) : List HostStmt :=
  [.label lbl, .rd (.reg .status) varSt, .ifGoto (.test (.var varSt) (.num 1)) lbl]

/-- `wr BASE+i, v(i)` for i = 0 to n−1 (R89). -/
def expandWrites (base : RegName) (vals : List Nat) : List HostStmt :=
  vals.zipIdx.map fun vi => .wr (.add (.reg base) (.num vi.2)) (.num vi.1)

/-- `wrser`: the length, then the digits as ASCII (R89). More than 12 digits, which R89 gives no meaning, expand by the
same pattern: the model's choice (log entry 14). -/
def expandWrser (digits : List (Fin 10)) : List HostStmt :=
  .wr (.reg .serLen) (.num digits.length) :: expandWrites .serChar (digits.map fun d => 0x30 + d.val)

/-- `wrin`: the length, then the bytes (R89). More than 64 bytes, which R89 gives no meaning, expand by the same pattern:
the model's choice (log entry 14). -/
def expandWrin (bytes : List Byte) : List HostStmt :=
  .wr (.reg .inLen) (.num bytes.length) :: expandWrites .inBuf (bytes.map fun b => b.toNat)

/-- `rdout -> $o[0..n−1]`: OUT_LEN, then that many bytes of OUT_BUF; element i of `$o` is variable `dst + i` (R89). The
reads are guarded by `$n`, which only the running program knows (log entry 8). -/
def expandRdout (dst : HostVar) (lbl : Label) : List HostStmt :=
  .rd (.reg .outLen) varN ::
    (List.range bufBytes).flatMap (fun i =>
      [.ifGoto (.eq (.var varN) (.num i)) lbl, .rd (.add (.reg .outBuf) (.num i)) (dst + i)]) ++ [.label lbl]

/-- The expansion of source line number `k` (R88, R89). -/
def expandLine (k : Nat) : HostSrc → List HostStmt
  | .base st => [st]
  | .cmd i => [expandCmd (encode i)]
  | .cmdRaw v => [expandCmd v]
  | .wait => expandWait (.fresh k)
  | .wrser digits => expandWrser digits
  | .wrin bytes => expandWrin bytes
  | .rdout dst => expandRdout dst (.fresh k)
  | .run i => expandCmd (encode i) :: expandWait (.fresh k)

/-- The base statements of a host program. No well-formedness check is consulted (log entry 14). -/
def expandProgram (src : List HostSrc) : List HostStmt := src.zipIdx.flatMap fun lk => expandLine lk.2 lk.1

/-! ## Variables and expressions (R87) -/

/-- The value of a host variable; one never assigned has a free value (log entry 9). -/
def hostVar (vars : List (HostVar × Nat)) (x : HostVar) : Nat :=
  match vars with
  | [] => Config.unassignedVar x
  | (y, v) :: rest => if y = x then v else hostVar rest x

/-- Assignment to a host variable, the list kept sorted by variable with no repeats. -/
def setHostVar (x : HostVar) (v : Nat) : List (HostVar × Nat) → List (HostVar × Nat)
  | [] => [(x, v)]
  | (y, w) :: rest =>
    if x < y then (x, v) :: (y, w) :: rest
    else if x = y then (x, v) :: rest
    else (y, w) :: setHostVar x v rest

/-- `a - b` on naturals; below zero the spec gives no result (log entry 9). -/
def hostSub (a b : Nat) : Nat := if b ≤ a then a - b else Config.subBelowZero a b

/-- `a div b`, the natural-number quotient (00_scope.md R11); by 0 a free value (log entry 9). -/
def hostDiv (a b : Nat) : Nat := if b = 0 then Config.divByZero a else a / b

/-- `a mod b`, the natural-number remainder (00_scope.md R11); by 0 a free value (log entry 9). -/
def hostMod (a b : Nat) : Nat := if b = 0 then Config.modByZero a else a % b

/-- The value of a host expression (R87; operators 00_scope.md R11). -/
def evalExpr (vars : List (HostVar × Nat)) : HostExpr → Nat
  | .num v => v
  | .reg r => regBase r
  | .var x => hostVar vars x
  | .add a b => evalExpr vars a + evalExpr vars b
  | .sub a b => hostSub (evalExpr vars a) (evalExpr vars b)
  | .xor a b => evalExpr vars a ^^^ evalExpr vars b
  | .or a b => evalExpr vars a ||| evalExpr vars b
  | .and a b => evalExpr vars a &&& evalExpr vars b
  | .shl a b => evalExpr vars a <<< evalExpr vars b
  | .shr a b => evalExpr vars a >>> evalExpr vars b
  | .div a b => hostDiv (evalExpr vars a) (evalExpr vars b)
  | .mod a b => hostMod (evalExpr vars a) (evalExpr vars b)
  | .pow a b => evalExpr vars a ^ evalExpr vars b
  | .rotl16 a => ((evalExpr vars a <<< 1) ||| (evalExpr vars a >>> 15)) &&& 0xFFFF
  | .ceilHalf a => (evalExpr vars a + 1) / 2

/-- The truth of a host condition (R87). -/
def evalCond (vars : List (HostVar × Nat)) : HostCond → Bool
  | .eq a b => evalExpr vars a == evalExpr vars b
  | .ne a b => evalExpr vars a != evalExpr vars b
  | .lt a b => decide (evalExpr vars a < evalExpr vars b)
  | .test e m => (evalExpr vars e &&& evalExpr vars m) != 0

/-! ## One step of the host -/

/-- The host at the statement numbered `k`. -/
def hostAt (k : Nat) (s : State) : State := { s with host := { s.host with pos := k } }

/-- The host past the statement it is at. -/
def hostNext (s : State) : State := hostAt (s.host.pos + 1) s

/-- The host with a variable assigned. -/
def hostAssign (x : HostVar) (v : Nat) (s : State) : State :=
  { s with host := { s.host with vars := setHostVar x v s.host.vars } }

/-- The indexes at which a program defines a label. -/
def labelIndexes (prog : List HostStmt) (l : Label) : List Nat :=
  prog.zipIdx.filterMap fun sk => if sk.1 = .label l then some sk.2 else none

/-- `goto`: to the one statement that defines the label (log entry 7). -/
def hostGoto (l : Label) (s : State) : Outcome :=
  match labelIndexes s.host.prog l with
  | [k] => .next (hostAt k s)
  | _ => .fault .hostLabel

/-- A number as a bus byte, if it is 0x00 to 0xFF (R87). -/
def busByte (n : Nat) : Option Byte := if n < 256 then some (BitVec.ofNat 8 n) else none

/-- `wr A, V`: one write transaction (R87). -/
def hostWr (a v : HostExpr) (s : State) : Outcome :=
  match busByte (evalExpr s.host.vars a), busByte (evalExpr s.host.vars v) with
  | some a, some v => .next (hostNext (busCycle (writePorts a v) s))
  | _, _ => .fault .hostOperandRange

/-- `rd A -> $x`: one read transaction, its byte to the variable (R87). -/
def hostRd (a : HostExpr) (x : HostVar) (s : State) : Outcome :=
  match busByte (evalExpr s.host.vars a) with
  | some a => .next (hostNext (hostAssign x (memRead a s).toNat (busCycle (readPorts a) s)))
  | none => .fault .hostOperandRange

/-- One statement of the host program (R87). `halt` ends the program. -/
def hostExec (st : HostStmt) (s : State) : Outcome :=
  match st with
  | .wr a v => hostWr a v s
  | .rd a x => hostRd a x s
  | .label _ => .next (hostNext s)
  | .assign x e => .next (hostNext (hostAssign x (evalExpr s.host.vars e) s))
  | .ifGoto c l => if evalCond s.host.vars c then hostGoto l s else .next (hostNext s)
  | .goto l => hostGoto l s
  | .halt => .next (hostAt s.host.prog.length s)

/-- The host's next statement, if its program has one; a program that has ended issues no more (log entry 7). -/
def hostStep (s : State) : Outcome :=
  match s.host.prog[s.host.pos]? with
  | some st => hostExec st s
  | none => .next s

/-- A host with a program before its first statement. The program need not be well formed (log entry 14). -/
def loadHost (src : List HostSrc) (s : State) : State :=
  { s with host := { prog := expandProgram src, pos := 0, vars := [] } }

end Sys2Proof.Machine
end

