-- ==== Sys2Proof/Machine/Step.lean ====
section
/-! DEFINITION. One step of the machine: one entry of the total order of host transactions and completion steps
(20_memory.md R72). -/

namespace Sys2Proof.Machine

/-- One step. The turns scheduled say who moves; when none is left, a command in flight completes (the engine is
weakly fair, 10_state.md R41), and otherwise the host moves. -/
def step (s : State) : Host.Outcome State Fault Refusal :=
  match s.turns with
  | [] => if s.busy then engineStep s else hostStep s
  | .engine :: rest => engineStep { s with turns := rest }
  | .host :: rest => hostStep { s with turns := rest }
  | .cycle p :: rest => .next (busCycle p { s with turns := rest })

/-- The state in which a command byte has just been accepted (10_state.md R40) and the engine moves next: the codec
fetches nothing (R22), and this is all it takes for the next step to be the byte's completion step. -/
def State.withFetchWord (s : State) (_nbits w : Nat) : State :=
  { acceptCommand (BitVec.ofNat 8 w) s with turns := .engine :: s.turns }

end Sys2Proof.Machine
end

