-- ==== Sys2Proof/Safety.lean ====
section
/-! DEFINITION. The terms the claims are stated in: what the host sees of a state, what a command leaves unchanged,
how a completion step ends, the serial and the image as the spec's tables read them off the registers, and the
invariant of a safe run. Each is written from the spec's rules over `memRead`, not over the definitions of the
meanings. -/

namespace Sys2Proof.Machine

/-! ## What is unchanged -/

/-- The address `base + i`. -/
def addrAt (base i : Nat) : Byte := BitVec.ofNat 8 (base + i)

/-- The byte at address `n`, as a number. -/
def regAt (n : Nat) (s : State) : Nat := (memRead (BitVec.ofNat 8 n) s).toNat

/-- Every byte of the register space outside the addresses `P` is as before. The register space is the whole state of
the codec (10_state.md R21). -/
def SameExcept (P : Nat → Prop) (s t : State) : Prop :=
  ∀ a : Byte, ¬ P a.toNat → memRead a t = memRead a s

/-- Nothing outside the codec changed: the read data port, the turns to come, the host, the draws. -/
def OutsideSame (s t : State) : Prop :=
  t.rdata = s.rdata ∧ t.turns = s.turns ∧ t.host = s.host ∧ t.draws = s.draws

/-- The addresses of STATUS and ERRCODE. -/
def StatusRegs (n : Nat) : Prop := n = 0x01 ∨ n = 0x02

/-- The addresses of the RW locations other than CMD (10_state.md R23): the inputs of every command. -/
def InputRegs (n : Nat) : Prop :=
  n = 0x04 ∨ n = 0x05 ∨ (0x10 ≤ n ∧ n < 0x1C) ∨ (0x40 ≤ n ∧ n < 0x80)

/-- The input registers a command may read in `s` (93_implementation_defined.md I8): SER_LEN and IN_LEN, the characters
below SER_LEN and the input bytes below IN_LEN. -/
def ReadRegs (s : State) (n : Nat) : Prop :=
  n = 0x04 ∨ n = 0x05 ∨ (0x10 ≤ n ∧ n < 0x1C ∧ n < 0x10 + regAt 0x04 s) ∨
    (0x40 ≤ n ∧ n < 0x80 ∧ n < 0x40 + regAt 0x05 s)

/-- The reserved addresses (10_state.md R33). -/
def ReservedRegs (n : Nat) : Prop :=
  n = 0x07 ∨ (0x0C ≤ n ∧ n ≤ 0x0F) ∨ (0x1C ≤ n ∧ n ≤ 0x1F) ∨ (0x2C ≤ n ∧ n ≤ 0x2F) ∨ (0x38 ≤ n ∧ n ≤ 0x3F)
    ∨ (0xC0 ≤ n ∧ n ≤ 0xFF)

/-- OUT_LEN and OUT_BUF. -/
def OutRegs (n : Nat) : Prop := n = 0x06 ∨ (0x80 ≤ n ∧ n < 0xC0)

/-- CSUM_LO and CSUM_HI. -/
def CsumRegs (n : Nat) : Prop := n = 0x08 ∨ n = 0x09

/-- The registers DECODE reports in: RESULT, CSUM, STORED, DIG_OUT and FOOTER_OUT (43_rom_image.md R187). -/
def ReportRegs (n : Nat) : Prop :=
  n = 0x03 ∨ CsumRegs n ∨ n = 0x0A ∨ n = 0x0B ∨ (0x20 ≤ n ∧ n < 0x2C) ∨ (0x30 ≤ n ∧ n < 0x38)

/-- The result registers (60_exceptions.md R223): RESULT, CSUM, STORED, OUT_LEN, OUT_BUF, DIG_OUT and FOOTER_OUT. -/
def ResultRegs (n : Nat) : Prop := ReportRegs n ∨ OutRegs n

/-! ## How a completion step ends -/

/-- STATUS goes from BUSY to DONE, WIGN and the reserved bits kept (10_state.md R41), with ERR as given. -/
def StatusEnds (err : Bool) (s t : State) : Prop :=
  t.busy = false ∧ t.done = true ∧ t.err = err ∧ ∀ k, 3 ≤ k → t.status.getLsbD k = s.status.getLsbD k

/-- The step ended by `complete()`: ERR and ERRCODE are as acceptance left them (60_exceptions.md R222). -/
def EndsOk (s t : State) : Prop := StatusEnds s.err s t ∧ t.errcode = s.errcode

/-- The step ended by `raise CmdError(code)` (60_exceptions.md R223). -/
def EndsErr (code : Nat) (s t : State) : Prop := StatusEnds true s t ∧ t.errcode = BitVec.ofNat 8 code

/-- A command refused with an error and none of its effects: only STATUS and ERRCODE change (60_exceptions.md R223). -/
def RefusedWith (code : Nat) (s t : State) : Prop :=
  EndsErr code s t ∧ SameExcept StatusRegs s t ∧ OutsideSame s t

/-- A command completed without error, which wrote the registers `P` and no others. -/
def CompletedWriting (P : Nat → Prop) (s t : State) : Prop :=
  EndsOk s t ∧ SameExcept (fun n => n = 0x01 ∨ P n) s t ∧ OutsideSame s t

/-! ## The serial, as 40_bcd.md reads it -/

/-- `serial_valid()` (R100). -/
def SerialOk (s : State) : Prop :=
  1 ≤ regAt 0x04 s ∧ regAt 0x04 s ≤ 12 ∧
    ∀ i, i < regAt 0x04 s → 0x30 ≤ regAt (0x10 + i) s ∧ regAt (0x10 + i) s ≤ 0x39

/-- `d[j]`, digit j of the padded serial (R101). -/
def serialDigit (s : State) (j : Nat) : Nat :=
  if j < 12 - regAt 0x04 s then 0 else regAt (0x10 + (j - (12 - regAt 0x04 s))) s - 0x30

/-- The serial's value N (R107). -/
def serialNumber (s : State) : Nat :=
  ((List.range 12).map fun j => 10 ^ (11 - j) * serialDigit s j).sum

/-- `bcd_block()[k]` (R102): `pre[5-k]`, the pair of digits 2(5−k) and 2(5−k)+1. -/
def serialBlockByte (s : State) (k : Nat) : Byte :=
  BitVec.ofNat 8 (16 * serialDigit s (2 * (5 - k)) + serialDigit s (2 * (5 - k) + 1))

/-- The checksum of the serial's BCD Block (43_rom_image.md R170). -/
def serialChecksum (s : State) : Word := checksum ((List.range 6).map (serialBlockByte s))

/-! ## The image, as 43_rom_image.md R172 tabulates it -/

/-- The FOOTER constant, byte k (10_state.md R39). -/
def footerByte (k : Nat) : Byte := ([0x00, 0xFF, 0x55, 0xAA, 0xFF, 0x00, 0xAF, 0x50] : List Byte).getD k 0

/-- Byte `i` of the plain image (R172: the table of offsets). -/
def plainImageByte (s : State) (i : Nat) : Byte :=
  if i < 24 then
    if i % 8 < 6 then serialBlockByte s (i % 8)
    else if i % 8 = 6 then BitVec.ofNat 8 ((serialChecksum s).toNat % 256)
    else BitVec.ofNat 8 ((serialChecksum s).toNat / 256)
  else footerByte (i - 24)

/-- The input bytes IN_BUF[0..IN_LEN−1], read at their addresses (10_state.md R37). -/
def inputList (s : State) : List Byte := (List.range (regAt 0x05 s)).map fun i => memRead (addrAt 0x40 i) s

/-- The input is detected as interleaved: every odd-indexed byte is 0x00 (R180). -/
def DetectedIl (s : State) : Prop := ∀ i, i < regAt 0x05 s → i % 2 = 1 → memRead (addrAt 0x40 i) s = 0

/-- Data byte `i` of an image in IN_BUF: at offset i in plain mode and 2i in interleaved mode (R183). -/
def dataByte (il : Bool) (s : State) (i : Nat) : Byte := memRead (addrAt 0x40 (if il then 2 * i else i)) s

/-- The BCD Block of the image in IN_BUF (R183). -/
def dataBlock (il : Bool) (s : State) : List Byte := (List.range 6).map (dataByte il s)

/-! ## Words and errors -/

/-- The bytes of a list of words, each low byte first (20_memory.md R65). -/
def wordBytes (ws : List Word) : List Byte :=
  ws.flatMap fun w => [BitVec.ofNat 8 (w.toNat % 256), BitVec.ofNat 8 (w.toNat / 256)]

/-- `rotl16_k(w_1) ^ rotl16_(k−1)(w_2) ^ ... ^ rotl16_1(w_k)` (41_checksum.md R133), with `rotl16_m` as `rotl16`
applied m times. -/
def rotatedXor : List Word → Word
  | [] => 0
  | w :: ws => (rotl16^[ws.length + 1]) w ^^^ rotatedXor ws

/-- The error code of a command on its inputs (60_exceptions.md R220's table, in R224's order); 0 is NONE. -/
def ErrorCodeOf (i : Instr) (s : State) (code : Nat) : Prop :=
  match i with
  | .validate => code = 0
  | .bcdpack => (SerialOk s ∧ code = 0) ∨ (¬ SerialOk s ∧ code = 2)
  | .encodePlain => (SerialOk s ∧ code = 0) ∨ (¬ SerialOk s ∧ code = 2)
  | .encodeEmu => (SerialOk s ∧ code = 0) ∨ (¬ SerialOk s ∧ code = 2)
  | .bcdunpack => (regAt 0x05 s = 6 ∧ code = 0) ∨ (regAt 0x05 s ≠ 6 ∧ code = 3)
  | .csum => (regAt 0x05 s ≤ 64 ∧ regAt 0x05 s % 2 = 0 ∧ code = 0) ∨
      ((64 < regAt 0x05 s ∨ regAt 0x05 s % 2 ≠ 0) ∧ code = 3)
  | .ilv => (regAt 0x05 s ≤ 32 ∧ code = 0) ∨ (32 < regAt 0x05 s ∧ code = 3)
  | .dilv => (regAt 0x05 s ≤ 64 ∧ code = 0) ∨ (64 < regAt 0x05 s ∧ code = 3)
  | .decode => (64 < regAt 0x05 s ∧ code = 3) ∨
      (regAt 0x05 s = 64 ∧ DetectedIl s ∧ code = 0) ∨ (regAt 0x05 s = 32 ∧ ¬ DetectedIl s ∧ code = 0) ∨
      (regAt 0x05 s ≤ 64 ∧ ¬ (regAt 0x05 s = 64 ∧ DetectedIl s) ∧ ¬ (regAt 0x05 s = 32 ∧ ¬ DetectedIl s) ∧ code = 4)

/-! ## The invariant of a safe run -/

/-- STATUS and ERRCODE fit together (10_state.md R25, R26, R40, R41). -/
def StatusInv (s : State) : Prop :=
  (∀ k, 4 ≤ k → s.status.getLsbD k = false) ∧ ¬ (s.busy = true ∧ s.done = true) ∧
    (s.err = true → s.done = true) ∧ (s.wign = true → s.busy = true ∨ s.done = true) ∧
    (s.err = true ↔ s.errcode ≠ 0) ∧ s.errcode.toNat ≤ 4

/-- RESULT and DIG_OUT fit together (10_state.md R27, R35): bits 7:6 are 0, VALID is CSUM_OK AND FOOTER_OK, every
DIG_OUT is a nibble, and a decimal digit where BCD_OK = 1. -/
def ResultInv (s : State) : Prop :=
  (∀ k, 6 ≤ k → s.result.getLsbD k = false) ∧
    s.result.getLsbD 3 = (s.result.getLsbD 1 && s.result.getLsbD 2) ∧
    (∀ i, (h : i < 12) → s.digOut[i].toNat ≤ 15) ∧
    (s.result.getLsbD 4 = true → ∀ i, (h : i < 12) → s.digOut[i].toNat ≤ 9)

/-- OUT_LEN is at most 64 and OUT_BUF is 0x00 from OUT_LEN on (10_state.md R30, R38). -/
def OutInv (s : State) : Prop :=
  s.outLen.toNat ≤ 64 ∧ ∀ i, (h : i < 64) → s.outLen.toNat ≤ i → s.outBuf[i] = 0

/-- The host's variables are listed in rising order, each once. -/
def HostInv (s : State) : Prop := s.host.vars.Pairwise fun a b => a.1 < b.1

/-- The invariant: what every step keeps. -/
def Inv (s : State) : Prop := StatusInv s ∧ ResultInv s ∧ OutInv s ∧ HostInv s

end Sys2Proof.Machine
end

