-- ==== Sys2Proof/Certificates/Slice0/Obligations.lean ====
section
/-! DEFINITION. The statements for the provers, in the spec's order: the register map and the bus, the encoding, the BCD
encoder, the checksum, the interleaver, the image formatter, the errors, reset, and the whole machine. -/

open Sys2Proof Sys2Proof.Machine

/-! ## The register map and the host bus -/

/-- 10_state.md R23, the address column (derived: its other columns are stated by the obligations on writes, on reset
and on each command). Every register is read at its address, and each element of a byte array at its own. -/
def Obligations.EveryRegisterIsReadAtItsAddress : Prop :=
  ∀ s : State,
    memRead 0x00 s = s.cmd ∧ memRead 0x01 s = s.status ∧ memRead 0x02 s = s.errcode ∧ memRead 0x03 s = s.result ∧
    memRead 0x04 s = s.serLen ∧ memRead 0x05 s = s.inLen ∧ memRead 0x06 s = s.outLen ∧
    memRead 0x08 s = s.csumLo ∧ memRead 0x09 s = s.csumHi ∧ memRead 0x0A s = s.storedLo ∧
    memRead 0x0B s = s.storedHi ∧
    (∀ i, (h : i < 12) → memRead (addrAt 0x10 i) s = s.serChar[i] ∧ memRead (addrAt 0x20 i) s = s.digOut[i]) ∧
    (∀ i, (h : i < 8) → memRead (addrAt 0x30 i) s = s.footerOut[i]) ∧
    ∀ i, (h : i < 64) → memRead (addrAt 0x40 i) s = s.inBuf[i] ∧ memRead (addrAt 0x80 i) s = s.outBuf[i]

/-- 10_state.md R33. The reserved addresses read 0x00 in every state. A host write to one changes nothing, except that
while BUSY = 1 it sets STATUS.WIGN. -/
def Obligations.ReservedAddressesReadZeroIgnoreWrites : Prop :=
  ∀ (s : State) (a v : Byte), ReservedRegs a.toNat →
    memRead a s = 0 ∧
    (s.busy = false → memWrite a v s = s) ∧
    (s.busy = true → (memWrite a v s).wign = true ∧ (∀ k, k ≠ 3 → (memWrite a v s).status.getLsbD k = s.status.getLsbD k) ∧
      SameExcept (fun n => n = 0x01) s (memWrite a v s) ∧ OutsideSame s (memWrite a v s))

/-- 20_memory.md R61 (derived: which byte is at an address is EveryRegisterIsReadAtItsAddress). A read cycle returns
the byte at the address (0x00 at a reserved one) and changes no byte of the register space, whatever the state: STATUS
is not cleared by reading it. -/
def Obligations.ReadsReturnTheByteChangeNothing : Prop :=
  ∀ (s : State) (a : Byte),
    (busCycle (readPorts a) s).rdata = some (memRead a s) ∧
    (ReservedRegs a.toNat → (busCycle (readPorts a) s).rdata = some 0) ∧
    SameExcept (fun _ => False) s (busCycle (readPorts a) s) ∧
    (busCycle (readPorts a) s).turns = s.turns ∧ (busCycle (readPorts a) s).host = s.host ∧
    (busCycle (readPorts a) s).draws = s.draws

/-- 20_memory.md R62, with the effects of 10_state.md R40 and R42. A host write while BUSY = 1 is ignored whatever its
address and sets WIGN, while reads go on as before; a write to CMD while idle accepts the command and changes CMD,
STATUS and ERRCODE alone; a write to another RW location while idle stores there alone; any other write changes
nothing. -/
def Obligations.HostWriteEffects : Prop :=
  ∀ (s : State) (a v : Byte),
    (s.busy = true →
      (memWrite a v s).wign = true ∧ (∀ k, k ≠ 3 → (memWrite a v s).status.getLsbD k = s.status.getLsbD k) ∧
      SameExcept (fun n => n = 0x01) s (memWrite a v s) ∧
      ∀ b, (busCycle (readPorts b) s).rdata = some (memRead b s)) ∧
    (s.busy = false → a = 0x00 →
      memRead 0x00 (memWrite a v s) = v ∧ memRead 0x01 (memWrite a v s) = 0b00000001 ∧
      memRead 0x02 (memWrite a v s) = 0 ∧ SameExcept (fun n => n = 0x00 ∨ StatusRegs n) s (memWrite a v s)) ∧
    (s.busy = false → InputRegs a.toNat →
      memRead a (memWrite a v s) = v ∧ SameExcept (fun n => n = a.toNat) s (memWrite a v s)) ∧
    (s.busy = false → a ≠ 0x00 → ¬ InputRegs a.toNat → memWrite a v s = s) ∧
    OutsideSame s (memWrite a v s)

/-- 20_memory.md R63 (derived; the free value is log entry 4's). With `we` and `re` asserted in one cycle the write is
performed as if alone, and the read data is the next free value: any value. -/
def Obligations.WriteAndReadTogetherWritesAndReadsAnyValue : Prop :=
  ∀ (s : State) (a v : Byte),
    SameExcept (fun _ => False) (memWrite a v s)
      (busCycle { rst := false, we := true, re := true, addr := a, wdata := v } s) ∧
    (busCycle { rst := false, we := true, re := true, addr := a, wdata := v } s).rdata
      = some (Config.freeRdata s.draws) ∧
    (busCycle { rst := false, we := true, re := true, addr := a, wdata := v } s).draws = s.draws + 1

/-- 20_memory.md R70 (CODEC_BASE is open, 92 D3; derived). The platform's window of 256 addresses from CODEC_BASE on
reaches each register address once, and no address outside the window reaches the codec. -/
def Obligations.WindowReachesEachRegisterOnce : Prop :=
  (∀ a : Byte, windowAddr (Config.codecBase + a.toNat) = some a) ∧
  ∀ n : Nat, (n < Config.codecBase ∨ Config.codecBase + 256 ≤ n) → windowAddr n = none

/-! ## The command encoding -/

/-- 30_encoding.md R85 (sanity). The nine command bytes, written out from the table, decode to their commands. -/
def Obligations.TableBytesDecode : Prop :=
  decodeByte 0b00000001 = .ok .validate ∧ decodeByte 0b00000010 = .ok .bcdpack ∧
  decodeByte 0b00000011 = .ok .bcdunpack ∧ decodeByte 0b00000100 = .ok .csum ∧
  decodeByte 0b00000101 = .ok .ilv ∧ decodeByte 0b00000110 = .ok .dilv ∧
  decodeByte 0b00000111 = .ok .encodePlain ∧ decodeByte 0b10000111 = .ok .encodeEmu ∧
  decodeByte 0b00001000 = .ok .decode

/-- 30_encoding.md R82, R85 (sanity). Decode and encode agree in both directions: a byte decodes to a command exactly
when it is that command's byte. -/
def Obligations.DecodeIsTheInverseOfEncode : Prop :=
  ∀ (i : Instr) (c : Byte), decodeByte c = .ok i ↔ c = encode i

/-- 30_encoding.md R83. The legal command bytes are exactly nine; an illegal byte is accepted like any other and stored
in CMD, and its completion step raises ILLEGAL_CMD and writes nothing besides STATUS and ERRCODE. -/
def Obligations.IllegalBytesAcceptedThenIllegalCmd : Prop :=
  ∀ c : Byte,
    ((∃ i, decodeByte c = .ok i) ↔ c.toNat ∈ [0x01, 0x02, 0x03, 0x04, 0x05, 0x06, 0x07, 0x87, 0x08]) ∧
    (c.toNat ∉ [0x01, 0x02, 0x03, 0x04, 0x05, 0x06, 0x07, 0x87, 0x08] → ∀ s : State,
      (s.busy = false → (memWrite 0x00 c s).busy = true ∧ memRead 0x00 (memWrite 0x00 c s) = c) ∧
      (s.busy = true → memRead 0x00 s = c → ∃ t, engineStep s = .next t ∧ RefusedWith 1 s t))

/-- A STEP RUNS THE DECODED COMMAND (derived): with a command in flight whose byte decodes to `i`, the step in which the
engine moves is `exec i`, in the state without that turn (10_state.md R41, 30_encoding.md R82). WHICH step that is, is
the model's choice: R41 says only some later engine step, and that the engine moves next when `turns` is empty is log
entry 2's order. The last clause, that a command placed by `withFetchWord` is the one the next step runs, is the model's
choice too (log entry 1). -/
def Obligations.StepRunsTheDecodedCommand : Prop :=
  (∀ (s : State) (i : Instr) (rest : List Turn), s.busy = true → decodeByte s.cmd = .ok i →
    (s.turns = [] → step s = exec i s) ∧
    (s.turns = .engine :: rest → step s = exec i { s with turns := rest })) ∧
  ∀ (s : State) (i : Instr), step (s.withFetchWord 8 (encode i).toNat) = exec i (acceptCommand (encode i) s)

/-! ## Every command -/

/-- 10_state.md R41, R43 (derived). From every state, every command's completion step answers a next state: BUSY
falls, DONE rises, WIGN keeps its value, and the command's inputs, CMD and all that is outside the codec are
unchanged. -/
def Obligations.EveryCommandCompletesKeepingInputs : Prop :=
  ∀ (i : Instr) (s : State), ∃ t, exec i s = .next t ∧
    t.busy = false ∧ t.done = true ∧ t.wign = s.wign ∧
    memRead 0x00 t = memRead 0x00 s ∧ (∀ a : Byte, InputRegs a.toNat → memRead a t = memRead a s) ∧ OutsideSame s t

/-- 10_state.md R43, R45 and 93 I8 (derived). A command's result never depends on STATUS, RESULT, ERRCODE or an earlier
command's results, nor on the characters from SER_LEN on or the input bytes from IN_LEN on: from two states that agree
on what commands read, the same command ends with the same error or none, and leaves each result register either equal
in both or as it was in both. -/
def Obligations.ResultsDependOnInputsOnly : Prop :=
  ∀ (i : Instr) (s s' t t' : State), (∀ a : Byte, ReadRegs s a.toNat → memRead a s' = memRead a s) →
    s.err = false → s'.err = false → exec i s = .next t → exec i s' = .next t' →
    t'.err = t.err ∧ (t.err = true → t'.errcode = t.errcode) ∧
    ∀ a : Byte, ResultRegs a.toNat →
      memRead a t' = memRead a t ∨ (memRead a t = memRead a s ∧ memRead a t' = memRead a s')

/-- 70_reset_and_hazards.md R258 (derived). Re-issuing the command just completed, without changing its inputs, gives
the same results and the same error. -/
def Obligations.ReissueGivesTheSameResults : Prop :=
  ∀ (i : Instr) (s t u : State), s.err = false → s.errcode = 0 → memRead 0x00 s = encode i →
    exec i s = .next t → exec i (acceptCommand (encode i) t) = .next u →
    SameExcept (fun n => n = 0x01) t u ∧ u.err = t.err

/-! ## The BCD encoder -/

/-- 40_bcd.md R104. VALIDATE completes in every state and writes RESULT whole: SER_OK (bit 5) is the verdict on SER_LEN
and SER_CHAR, every other bit 0. Nothing else but STATUS changes. -/
def Obligations.ValidateWritesTheVerdict : Prop :=
  decodeByte 0b00000001 = .ok .validate ∧ ∀ s : State, ∃ t, exec .validate s = .next t ∧
    (SerialOk s → memRead 0x03 t = 0b00100000) ∧ (¬ SerialOk s → memRead 0x03 t = 0) ∧
    CompletedWriting (fun n => n = 0x03) s t

/-- 40_bcd.md R105. BCDPACK on a valid serial writes the BCD Block to OUT_BUF[0..5], 0x00 to the rest of OUT_BUF and 6
to OUT_LEN, and nothing else; on an invalid serial it raises VALIDATION and leaves OUT_BUF and OUT_LEN unchanged. -/
def Obligations.BcdpackWritesTheBlock : Prop :=
  decodeByte 0b00000010 = .ok .bcdpack ∧ ∀ s : State,
    (SerialOk s → ∃ t, exec .bcdpack s = .next t ∧ memRead 0x06 t = 6 ∧
      (∀ k, k < 6 → memRead (addrAt 0x80 k) t = serialBlockByte s k) ∧
      (∀ k, 6 ≤ k → k < 64 → memRead (addrAt 0x80 k) t = 0) ∧ CompletedWriting OutRegs s t) ∧
    (¬ SerialOk s → ∃ t, exec .bcdpack s = .next t ∧ RefusedWith 2 s t)

/-- 40_bcd.md R107. The block BCDPACK writes is the serial's value N in units of two decimal digits, the least
significant first; N is below 10^12, and each digit is at most 9. -/
def Obligations.BlockIsTheSerialNumberInPairs : Prop :=
  ∀ s : State, SerialOk s → serialNumber s ≤ 10 ^ 12 - 1 ∧ (∀ j, j < 12 → serialDigit s j ≤ 9) ∧
    ∃ t, exec .bcdpack s = .next t ∧ ∀ k, k < 6 →
      memRead (addrAt 0x80 k) t =
        BitVec.ofNat 8 (16 * ((serialNumber s / 100 ^ k % 100) / 10) + (serialNumber s / 100 ^ k % 100) % 10)

/-- 40_bcd.md R106. BCDUNPACK on six bytes writes their twelve nibbles to DIG_OUT, the last byte's high nibble first,
and RESULT: BCD_OK (bit 4) iff every nibble is at most 9, every other bit 0. On another length it raises LENGTH. -/
def Obligations.BcdunpackWritesTheDigits : Prop :=
  decodeByte 0b00000011 = .ok .bcdunpack ∧ ∀ s : State,
    (regAt 0x05 s = 6 → ∃ t, exec .bcdunpack s = .next t ∧
      (∀ j, j < 6 → regAt (0x20 + 2 * j) t = regAt (0x40 + (5 - j)) s / 16 ∧
        regAt (0x20 + (2 * j + 1)) t = regAt (0x40 + (5 - j)) s % 16) ∧
      ((∀ i, i < 12 → regAt (0x20 + i) t ≤ 9) → memRead 0x03 t = 0b00010000) ∧
      (¬ (∀ i, i < 12 → regAt (0x20 + i) t ≤ 9) → memRead 0x03 t = 0) ∧
      CompletedWriting (fun n => n = 0x03 ∨ (0x20 ≤ n ∧ n < 0x2C)) s t) ∧
    (regAt 0x05 s ≠ 6 → ∃ t, exec .bcdunpack s = .next t ∧ RefusedWith 3 s t)

/-- 40_bcd.md R108. Unpacking the block of a valid serial gives back its padded digits, each a decimal digit; and
packing the digits of a six-byte block whose nibbles are all at most 9 gives the block back. -/
def Obligations.UnpackInvertsPack : Prop :=
  (∀ s : State, SerialOk s →
    (blockDigits (bcdBlock s)).map BitVec.toNat = (List.range 12).map (serialDigit s) ∧
    digitsOk (blockDigits (bcdBlock s)) = true) ∧
  ∀ b : List Byte, b.length = 6 → digitsOk (blockDigits b) = true → packBlock (blockDigits b) = b

/-! ## The checksum -/

/-- 41_checksum.md R131. CSUM on an even length up to 64 writes the checksum of the input bytes to CSUM_LO and CSUM_HI
and nothing else; on an odd length or one above 64 it raises LENGTH. -/
def Obligations.CsumWritesTheChecksum : Prop :=
  decodeByte 0b00000100 = .ok .csum ∧ ∀ s : State,
    (regAt 0x05 s ≤ 64 → regAt 0x05 s % 2 = 0 → ∃ t, exec .csum s = .next t ∧
      regAt 0x08 t = (checksum (inputList s)).toNat % 256 ∧ regAt 0x09 t = (checksum (inputList s)).toNat / 256 ∧
      CompletedWriting CsumRegs s t) ∧
    (64 < regAt 0x05 s ∨ regAt 0x05 s % 2 ≠ 0 → ∃ t, exec .csum s = .next t ∧ RefusedWith 3 s t)

/-- 41_checksum.md R133. The closed form of the checksum of k words, with its three-word case and its linearity apart
from the constant. `rotl16` is a rotation left by one, so 0xFFFF is fixed. -/
def Obligations.ChecksumHasTheClosedForm : Prop :=
  (∀ ws : List Word, checksum (wordBytes ws) = (rotl16^[ws.length]) 0xFFFF ^^^ rotatedXor ws) ∧
  (∀ k : Nat, (rotl16^[k]) 0xFFFF = 0xFFFF) ∧
  (∀ w1 w2 w3 : Word, checksum (wordBytes [w1, w2, w3]) =
    0xFFFF ^^^ (rotl16^[3]) w1 ^^^ (rotl16^[2]) w2 ^^^ (rotl16^[1]) w3) ∧
  ∀ ws vs : List Word, ws.length = vs.length →
    checksum (wordBytes (List.zipWith (· ^^^ ·) ws vs)) = checksum (wordBytes ws) ^^^ checksum (wordBytes vs) ^^^ 0xFFFF

/-- 41_checksum.md R132. `rotl16` and `a ↦ a ^ w` are bijections; changing any one word of an input of a fixed length
changes the checksum; and the checksum depends on word order. -/
def Obligations.ChecksumSeesEveryWordAndTheirOrder : Prop :=
  Function.Bijective rotl16 ∧ (∀ w : Word, Function.Bijective fun a : Word => a ^^^ w) ∧
  (∀ (pre post : List Word) (w w' : Word), w ≠ w' →
    checksum (wordBytes (pre ++ w :: post)) ≠ checksum (wordBytes (pre ++ w' :: post))) ∧
  checksum [0x01, 0x00, 0x02, 0x00] = 0xFFFF ∧ checksum [0x02, 0x00, 0x01, 0x00] = 0xFFF5

/-! ## The interleaver -/

/-- 42_interleave.md R152. ILV on n ≤ 32 bytes writes byte i of the input to OUT_BUF[2i], 0x00 everywhere else in
OUT_BUF and 2n to OUT_LEN, and nothing else; above 32 it raises LENGTH. -/
def Obligations.IlvWritesTheInterleavedBytes : Prop :=
  decodeByte 0b00000101 = .ok .ilv ∧ ∀ s : State,
    (regAt 0x05 s ≤ 32 → ∃ t, exec .ilv s = .next t ∧ regAt 0x06 t = 2 * regAt 0x05 s ∧
      (∀ i, i < regAt 0x05 s → memRead (addrAt 0x80 (2 * i)) t = memRead (addrAt 0x40 i) s ∧
        memRead (addrAt 0x80 (2 * i + 1)) t = 0) ∧
      (∀ k, 2 * regAt 0x05 s ≤ k → k < 64 → memRead (addrAt 0x80 k) t = 0) ∧ CompletedWriting OutRegs s t) ∧
    (32 < regAt 0x05 s → ∃ t, exec .ilv s = .next t ∧ RefusedWith 3 s t)

/-- 42_interleave.md R153. DILV on n ≤ 64 bytes writes the even-indexed bytes to OUT_BUF, 0x00 to the rest and
ceil_half(n) to OUT_LEN, and nothing else; above 64 it raises LENGTH. -/
def Obligations.DilvWritesTheEvenBytes : Prop :=
  decodeByte 0b00000110 = .ok .dilv ∧ ∀ s : State,
    (regAt 0x05 s ≤ 64 → ∃ t, exec .dilv s = .next t ∧ regAt 0x06 t = (regAt 0x05 s + 1) / 2 ∧
      (∀ i, i < (regAt 0x05 s + 1) / 2 → memRead (addrAt 0x80 i) t = memRead (addrAt 0x40 (2 * i)) s) ∧
      (∀ k, (regAt 0x05 s + 1) / 2 ≤ k → k < 64 → memRead (addrAt 0x80 k) t = 0) ∧ CompletedWriting OutRegs s t) ∧
    (64 < regAt 0x05 s → ∃ t, exec .dilv s = .next t ∧ RefusedWith 3 s t)

/-- 42_interleave.md R154. Deinterleave inverts interleave on every sequence; the converse holds exactly when the length
is even and every odd-indexed byte is 0x00. -/
def Obligations.DeinterleaveInvertsInterleave : Prop :=
  (∀ x : List Byte, deinterleave (interleave x) = x) ∧
  ∀ y : List Byte, interleave (deinterleave y) = y ↔
    (y.length % 2 = 0 ∧ ∀ i, i < y.length → i % 2 = 1 → y.getD i 0 = 0)

/-- 42_interleave.md R155 and 43_rom_image.md R174. Interleave distributes over concatenation, so the interleaved image,
built part by part, is the interleave of the plain image. -/
def Obligations.InterleavedImageIsThePlainOneInterleaved : Prop :=
  (∀ x y : List Byte, interleave (x ++ y) = interleave x ++ interleave y) ∧
  ∀ blk : List Byte, interleavedImage blk = interleave (plainImage blk) ∧
    (blk.length = 6 → ∀ i, i < 32 → (interleavedImage blk).getD (2 * i) 0 = (plainImage blk).getD i 0 ∧
      (interleavedImage blk).getD (2 * i + 1) 0 = 0)

/-! ## The ROM image formatter -/

/-- 43_rom_image.md R172, R173. ENCODE on a valid serial writes the image of R172's table to OUT_BUF (32 bytes plain; 64
interleaved, each plain byte at offset 2i and 0x00 at 2i+1), its length to OUT_LEN, 0x00 to the rest of OUT_BUF and the
block's checksum to CSUM, and nothing else; on an invalid serial it raises VALIDATION. -/
def Obligations.EncodeWritesTheImage : Prop :=
  decodeByte 0b00000111 = .ok .encodePlain ∧ decodeByte 0b10000111 = .ok .encodeEmu ∧ ∀ s : State,
    (SerialOk s → ∃ t, exec .encodePlain s = .next t ∧ memRead 0x06 t = 32 ∧
      (∀ i, i < 32 → memRead (addrAt 0x80 i) t = plainImageByte s i) ∧
      (∀ i, 32 ≤ i → i < 64 → memRead (addrAt 0x80 i) t = 0) ∧
      regAt 0x08 t = (serialChecksum s).toNat % 256 ∧ regAt 0x09 t = (serialChecksum s).toNat / 256 ∧
      CompletedWriting (fun n => OutRegs n ∨ CsumRegs n) s t) ∧
    (SerialOk s → ∃ t, exec .encodeEmu s = .next t ∧ memRead 0x06 t = 64 ∧
      (∀ i, i < 32 → memRead (addrAt 0x80 (2 * i)) t = plainImageByte s i ∧
        memRead (addrAt 0x80 (2 * i + 1)) t = 0) ∧
      regAt 0x08 t = (serialChecksum s).toNat % 256 ∧ regAt 0x09 t = (serialChecksum s).toNat / 256 ∧
      CompletedWriting (fun n => OutRegs n ∨ CsumRegs n) s t) ∧
    (¬ SerialOk s → (∃ t, exec .encodePlain s = .next t ∧ RefusedWith 2 s t) ∧
      ∃ t, exec .encodeEmu s = .next t ∧ RefusedWith 2 s t)

/-- 43_rom_image.md R182 (with R186's FORMAT branch and 60_exceptions.md R224). DECODE above 64 bytes raises LENGTH with
none of its effects; at a length of at most 64 that is not 64 for an interleaved input and 32 for a plain one, it raises
FORMAT, having written the mode to RESULT and 0 to CSUM, STORED, DIG_OUT and FOOTER_OUT, and nothing else. -/
def Obligations.DecodeRefusesEveryOtherLength : Prop :=
  ∀ s : State,
    (64 < regAt 0x05 s → ∃ t, exec .decode s = .next t ∧ RefusedWith 3 s t) ∧
    (regAt 0x05 s ≤ 64 → ∀ il : Bool, (il = true ↔ DetectedIl s) → regAt 0x05 s ≠ (if il then 64 else 32) →
      ∃ t, exec .decode s = .next t ∧ EndsErr 4 s t ∧ memRead 0x03 t = (if il then 1 else 0) ∧
        (∀ a : Byte, ReportRegs a.toNat → a ≠ 0x03 → memRead a t = 0) ∧
        SameExcept (fun n => StatusRegs n ∨ ReportRegs n) s t ∧ OutsideSame s t)

/-- 43_rom_image.md R184, at R183's offsets (with R186's writes). DECODE of an image of the length its detected mode
asks for completes without error and reports the mode, the verdicts, the stored and the computed checksum, the digits
and the footer; it writes nothing else. -/
def Obligations.DecodeReportsTheImage : Prop :=
  decodeByte 0b00001000 = .ok .decode ∧
  ∀ (s : State) (il : Bool), (il = true ↔ DetectedIl s) → regAt 0x05 s = (if il then 64 else 32) →
    ∃ t, exec .decode s = .next t ∧
      t.result.getLsbD 0 = il ∧
      (t.result.getLsbD 1 = true ↔ memRead 0x08 t = memRead 0x0A t ∧ memRead 0x09 t = memRead 0x0B t) ∧
      (t.result.getLsbD 2 = true ↔ ∀ k, k < 8 → dataByte il s (24 + k) = footerByte k) ∧
      t.result.getLsbD 3 = (t.result.getLsbD 1 && t.result.getLsbD 2) ∧
      (t.result.getLsbD 4 = true ↔ ∀ i, i < 12 → regAt (0x20 + i) t ≤ 9) ∧
      t.result.getLsbD 5 = false ∧ t.result.getLsbD 6 = false ∧ t.result.getLsbD 7 = false ∧
      regAt 0x08 t = (checksum (dataBlock il s)).toNat % 256 ∧ regAt 0x09 t = (checksum (dataBlock il s)).toNat / 256 ∧
      memRead 0x0A t = dataByte il s 6 ∧ memRead 0x0B t = dataByte il s 7 ∧
      (∀ j, j < 6 → regAt (0x20 + 2 * j) t = (dataByte il s (5 - j)).toNat / 16 ∧
        regAt (0x20 + (2 * j + 1)) t = (dataByte il s (5 - j)).toNat % 16) ∧
      (∀ k, k < 8 → memRead (addrAt 0x30 k) t = dataByte il s (24 + k)) ∧
      CompletedWriting ReportRegs s t

/-- 43_rom_image.md R180, R188. Mode detection is by the odd-indexed bytes of the whole input IN_BUF[0..IN_LEN−1], an
empty or all-zero input being interleaved; the two images of a block are each detected in their own mode. -/
def Obligations.ModeIsDetectedByTheOddBytes : Prop :=
  (∀ x : List Byte, isInterleaved x = true ↔ ∀ i, i < x.length → i % 2 = 1 → x.getD i 0 = 0) ∧
  (∀ s : State, regAt 0x05 s ≤ 64 → (isInterleaved (inputBytes s) = true ↔ DetectedIl s)) ∧
  isInterleaved [] = true ∧ (∀ n : Nat, isInterleaved (List.replicate n 0) = true) ∧
  ∀ blk : List Byte, blk.length = 6 →
    isInterleaved (plainImage blk) = false ∧ isInterleaved (interleavedImage blk) = true

/-- 43_rom_image.md R185. DECODE never reads copies 2 and 3, except for the mode: two inputs of one accepted length and
one mode that differ only there leave every register outside IN_BUF the same. -/
def Obligations.DecodeReadsOnlyTheFirstCopy : Prop :=
  ∀ (s s' : State) (il : Bool), (il = true ↔ DetectedIl s) → (il = true ↔ DetectedIl s') →
    regAt 0x05 s = (if il then 64 else 32) →
    SameExcept (fun n => 0x40 + (if il then 16 else 8) ≤ n ∧ n < 0x40 + (if il then 48 else 24)) s s' →
    ∃ t t', exec .decode s = .next t ∧ exec .decode s' = .next t' ∧
      SameExcept (fun n => 0x40 + (if il then 16 else 8) ≤ n ∧ n < 0x40 + (if il then 48 else 24)) t t'

/-- 43_rom_image.md R189. ENCODE then DECODE: whatever else a state holds, if IN_LEN is the OUT_LEN that ENCODE left
and IN_BUF its OUT_BUF up to there, a DECODE accepted then completes with ERR = 0 and reports the mode, all four
verdicts 1, the padded digits, and STORED = CSUM = the checksum of ENCODE. -/
def Obligations.EncodeThenDecodeRoundTrips : Prop :=
  ∀ (s t u : State) (emu : Bool), SerialOk s →
    exec (if emu then .encodeEmu else .encodePlain) s = .next t →
    memRead 0x05 u = memRead 0x06 t →
    (∀ i, i < regAt 0x06 t → memRead (addrAt 0x40 i) u = memRead (addrAt 0x80 i) t) →
    ∃ v, exec .decode (acceptCommand (encode .decode) u) = .next v ∧ v.err = false ∧ memRead 0x02 v = 0 ∧
      memRead 0x03 v = (if emu then 0b00011111 else 0b00011110) ∧
      (∀ j, j < 12 → regAt (0x20 + j) v = serialDigit s j) ∧
      memRead 0x08 v = memRead 0x08 t ∧ memRead 0x09 v = memRead 0x09 t ∧
      memRead 0x0A v = memRead 0x08 t ∧ memRead 0x0B v = memRead 0x09 t

/-- 43_rom_image.md R190. Tampering with an image ENCODE made: a bit flipped in the stored checksum of copy 1 gives
CSUM_OK = 0 with FOOTER_OK = 1; a bit flipped at any odd offset of an interleaved image gives FORMAT; a changed footer
byte gives FOOTER_OK = 0 with CSUM_OK = 1; a truncated image gives FORMAT; a change in copies 2 and 3 that keeps the
mode leaves every verdict 1. -/
def Obligations.TamperedImagesGetTheirVerdicts : Prop :=
  ∀ (s u : State) (emu : Bool) (img : List Byte), SerialOk s →
    img = (if emu then interleavedImage (bcdBlock s) else plainImage (bcdBlock s)) →
    (∀ (p b : Nat), p = 6 ∨ p = 7 → b < 8 →
      inputList u = img.set (if emu then 2 * p else p) (img.getD (if emu then 2 * p else p) 0 ^^^ BitVec.twoPow 8 b) →
      ∃ v, exec .decode u = .next v ∧ EndsOk u v ∧ v.result.getLsbD 1 = false ∧ v.result.getLsbD 2 = true) ∧
    (∀ (p b : Nat), emu = true → p % 2 = 1 → p < 64 → b < 8 →
      inputList u = img.set p (img.getD p 0 ^^^ BitVec.twoPow 8 b) →
      ∃ v, exec .decode u = .next v ∧ EndsErr 4 u v ∧ memRead 0x03 v = 0) ∧
    (∀ (k : Nat) (b : Byte), k < 8 → b ≠ footerByte k →
      inputList u = img.set (if emu then 2 * (24 + k) else 24 + k) b →
      ∃ v, exec .decode u = .next v ∧ EndsOk u v ∧ v.result.getLsbD 1 = true ∧ v.result.getLsbD 2 = false) ∧
    (∀ m : Nat, m < img.length → inputList u = img.take m →
      ∃ v, exec .decode u = .next v ∧ EndsErr 4 u v) ∧
    ((inputList u).length = img.length → (isInterleaved (inputList u) = emu) →
      (∀ i, i < img.length → i < (if emu then 16 else 8) ∨ (if emu then 48 else 24) ≤ i →
        (inputList u).getD i 0 = img.getD i 0) →
      ∃ v, exec .decode u = .next v ∧ EndsOk u v ∧ memRead 0x03 v = (if emu then 0b00011111 else 0b00011110))

/-! ## Errors -/

/-- 60_exceptions.md R223. `raise CmdError(code)` writes the code and ERR, ends the command and touches nothing else. An
error leaves every result register as it was, DECODE's FORMAT alone excepted. -/
def Obligations.ErrorsArePrecise : Prop :=
  (∀ (e : CmdError) (s : State), RefusedWith (match e with
    | .illegalCmd => 1 | .validation => 2 | .length => 3 | .format => 4) s (raiseCmdError e s)) ∧
  ∀ (i : Instr) (s t : State), s.err = false → exec i s = .next t → t.err = true →
    (∀ a : Byte, ResultRegs a.toNat → memRead a t = memRead a s) ∨
    (i = .decode ∧ memRead 0x02 t = 4 ∧ SameExcept (fun n => StatusRegs n ∨ ReportRegs n) s t)

/-- 60_exceptions.md R224, with R220's codes. The completion step of an accepted byte raises ILLEGAL_CMD for a byte
that is no command, and otherwise the one error of the command's own checks, in their order: ERRCODE holds its code,
which is at most 4, and ERR says whether there is one. -/
def Obligations.ErrorCodesFollowTheTable : Prop :=
  ∀ s : State, s.busy = true → s.err = false → s.errcode = 0 →
    ∃ t, engineStep s = .next t ∧ t.errcode.toNat ≤ 4 ∧ (t.err = true ↔ t.errcode ≠ 0) ∧
      ((∀ i, decodeByte s.cmd ≠ .ok i) → t.errcode = 1) ∧
      ∀ i, decodeByte s.cmd = .ok i → ErrorCodeOf i s t.errcode.toNat

/-! ## Reset -/

/-- 70_reset_and_hazards.md R251, R252 (derived, for its last two lines). A cycle with `rst` = 1 leaves every location
0x00, whatever else the host asserts and whatever was in flight, as the reset state does; BUSY = 0 and DONE = 0, so that
the command abandoned never completes. The model's own clauses: an engine turn with no command in flight changes nothing
(log entry 2, DEDUCED), and a reset cycle leaves the turns to come and the host as they were (log entry 5, DEDUCED; R251
names the codec's locations and nothing else). -/
def Obligations.ResetClearsEveryLocation : Prop :=
  ∀ (p : Ports) (s : State), p.rst = true →
    (∀ a : Byte, memRead a (busCycle p s) = 0) ∧ (∀ a : Byte, memRead a State.reset = 0) ∧
    (busCycle p s).busy = false ∧ (busCycle p s).done = false ∧
    engineStep (busCycle p s) = .next (busCycle p s) ∧
    (busCycle p s).turns = s.turns ∧ (busCycle p s).host = s.host

/-- 70_reset_and_hazards.md R254 (derived). Each command issued in a state with every location 0x00: VALIDATE gives
SER_OK = 0, BCDPACK and ENCODE give VALIDATION, CSUM gives 0xFFFF, ILV and DILV give OUT_LEN = 0, BCDUNPACK gives
LENGTH, and DECODE gives FORMAT with MODE_IL = 1. -/
def Obligations.CommandsStraightAfterReset : Prop :=
  ∀ s : State, (∀ a : Byte, memRead a s = 0) →
    (∃ t, exec .validate (acceptCommand (encode .validate) s) = .next t ∧ memRead 0x03 t = 0 ∧ memRead 0x02 t = 0) ∧
    (∀ i ∈ [Instr.bcdpack, .encodePlain, .encodeEmu],
      ∃ t, exec i (acceptCommand (encode i) s) = .next t ∧ memRead 0x02 t = 2) ∧
    (∃ t, exec .csum (acceptCommand (encode .csum) s) = .next t ∧ memRead 0x08 t = 0xFF ∧ memRead 0x09 t = 0xFF ∧
      memRead 0x02 t = 0) ∧
    (∀ i ∈ [Instr.ilv, .dilv],
      ∃ t, exec i (acceptCommand (encode i) s) = .next t ∧ memRead 0x06 t = 0 ∧ memRead 0x02 t = 0) ∧
    (∃ t, exec .bcdunpack (acceptCommand (encode .bcdunpack) s) = .next t ∧ memRead 0x02 t = 3) ∧
    (∃ t, exec .decode (acceptCommand (encode .decode) s) = .next t ∧ memRead 0x02 t = 4 ∧ memRead 0x03 t = 1)

/-! ## The whole machine -/

/-- The invariant holds at reset (70_reset_and_hazards.md R251; derived; its clause on the host's variables does not rest on
R251: it is the model's own, log entry 5). -/
def Obligations.InvariantAtReset : Prop := Inv State.reset

/-- THE INVARIANT IS KEPT BY EVERY STEP (10_state.md R25, R27, R30, R35, R38; derived; its clause on the host's
variables is the model's own, log entry 5), from every state that has it: STATUS and ERRCODE fit together (BUSY and
DONE are never both 1), RESULT and DIG_OUT fit together, OUT_BUF is clear from OUT_LEN on, and OUT_LEN is at most 64.
-/
def Obligations.EveryStepKeepsTheInvariant : Prop :=
  ∀ s t : State, Inv s → step s = .next t → Inv t

/-- 10_state.md R44, 20_memory.md R76 (derived). THE INPUTS OF A COMMAND IN FLIGHT ARE FROZEN: whatever cycles without
reset the host makes between acceptance and completion, the completion step leaves every register as it would have
left it at once, STATUS.WIGN alone excepted. -/
def Obligations.InputsAreFrozenWhileBusy : Prop :=
  ∀ (s : State) (ps : List Ports), s.busy = true → (∀ p ∈ ps, p.rst = false) →
    ∃ t t', engineStep s = .next t ∧ engineStep (ps.foldl (fun u p => busCycle p u) s) = .next t' ∧
      SameExcept (fun n => n = 0x01) t t' ∧ ∀ k, k ≠ 3 → t'.status.getLsbD k = t.status.getLsbD k

/-- 10_state.md R41, 70_reset_and_hazards.md R259 (derived; the schedule is log entry 2's). AN ACCEPTED COMMAND
EVENTUALLY COMPLETES: under every schedule of turns without reset, a state with BUSY = 1 reaches DONE = 1 within one
step more than there are turns scheduled, unless the host's own program stops the run before. -/
def Obligations.AcceptedCommandsEventuallyComplete : Prop :=
  ∀ s : State, s.busy = true → (∀ p, Turn.cycle p ∈ s.turns → p.rst = false) →
    ∃ k, k ≤ s.turns.length + 1 ∧
      ((∃ t : State, core.run k s = .next t ∧ t.busy = false ∧ t.done = true) ∨ ∃ f, core.run k s = .fault f)

/-- 20_memory.md R73 (derived). The results of a completed command stay until the next acceptance: cycles without
reset and without a write to CMD leave every location but the input registers as it is. -/
def Obligations.ResultsStayUntilTheNextCommand : Prop :=
  ∀ (s : State) (ps : List Ports), s.busy = false →
    (∀ p ∈ ps, p.rst = false ∧ (p.we = true → p.addr ≠ 0x00)) →
    SameExcept InputRegs s (ps.foldl (fun u p => busCycle p u) s)

/-! ## The host program -/

/-- 30_encoding.md R87 (derived). `wr A, V` is one write transaction and `rd A -> $x` one read transaction, whose byte
`$x` then holds; the host goes on to its next statement. An address or value that is not 0x00 to 0xFF makes no
transaction: the program stops (log entry 7). -/
def Obligations.HostStatementsAreOneTransaction : Prop :=
  ∀ (s : State) (a v : HostExpr) (x : HostVar),
    (s.host.prog[s.host.pos]? = some (.wr a v) →
      (evalExpr s.host.vars a < 256 → evalExpr s.host.vars v < 256 → ∃ t, hostStep s = .next t ∧
        SameExcept (fun _ => False)
          (memWrite (BitVec.ofNat 8 (evalExpr s.host.vars a)) (BitVec.ofNat 8 (evalExpr s.host.vars v)) s) t ∧
        t.turns = s.turns ∧ t.host = { s.host with pos := s.host.pos + 1 }) ∧
      (256 ≤ evalExpr s.host.vars a ∨ 256 ≤ evalExpr s.host.vars v → hostStep s = .fault .hostOperandRange)) ∧
    (s.host.prog[s.host.pos]? = some (.rd a x) →
      (evalExpr s.host.vars a < 256 → ∃ t, hostStep s = .next t ∧ SameExcept (fun _ => False) s t ∧
        t.turns = s.turns ∧ t.host.prog = s.host.prog ∧ t.host.pos = s.host.pos + 1 ∧
        hostVar t.host.vars x = regAt (evalExpr s.host.vars a) s ∧
        ∀ y, y ≠ x → hostVar t.host.vars y = hostVar s.host.vars y) ∧
      (256 ≤ evalExpr s.host.vars a → hostStep s = .fault .hostOperandRange))

/-- 30_encoding.md R87 (derived; a step of its own is log entry 12's). The statements other than `wr` and `rd` are no
transaction, and the codec never sees them: every location, the read data and the turns stay as they are. A jump goes
to the one statement that defines its label; to a label not defined exactly once it stops the program (log entry 7).
-/
def Obligations.HostOnlyStatementsAreInvisible : Prop :=
  ∀ (s : State) (st : HostStmt), s.host.prog[s.host.pos]? = some st →
    (∀ a v, st ≠ .wr a v) → (∀ a x, st ≠ .rd a x) →
    (∀ t, hostStep s = .next t → SameExcept (fun _ => False) s t ∧ t.rdata = s.rdata ∧ t.turns = s.turns ∧
      t.host.prog = s.host.prog) ∧
    (∀ x e, st = .assign x e → ∃ t, hostStep s = .next t ∧ t.host.pos = s.host.pos + 1 ∧
      hostVar t.host.vars x = evalExpr s.host.vars e ∧ ∀ y, y ≠ x → hostVar t.host.vars y = hostVar s.host.vars y) ∧
    (∀ l, st = .goto l ∨ (∃ c, st = .ifGoto c l ∧ evalCond s.host.vars c = true) →
      (∀ k, (∀ j : Nat, s.host.prog[j]? = some (HostStmt.label l) ↔ j = k) → ∃ t, hostStep s = .next t ∧ t.host.pos = k) ∧
      ((¬ ∃ k, ∀ j : Nat, s.host.prog[j]? = some (HostStmt.label l) ↔ j = k) → hostStep s = .fault .hostLabel)) ∧
    (∀ c l, st = .ifGoto c l → evalCond s.host.vars c = false →
      ∃ t, hostStep s = .next t ∧ t.host.pos = s.host.pos + 1) ∧
    (∀ l, st = .label l → ∃ t, hostStep s = .next t ∧ t.host.pos = s.host.pos + 1) ∧
    (st = .halt → ∃ t, hostStep s = .next t ∧ t.host.prog[t.host.pos]? = none)

/-- 30_encoding.md R89 (derived; with no turn scheduled, log entry 2's order). `run M` from an idle state: the host's
program issues the command's byte and polls until the command has completed, and then every location is as the
command's own completion step leaves it; `$st` holds a STATUS with BUSY = 0 and DONE = 1. -/
def Obligations.RunIssuesTheCommandAndWaits : Prop :=
  ∀ (s : State) (i : Instr), s.busy = false → s.turns = [] →
    ∃ (k : Nat) (t u : State), exec i (acceptCommand (encode i) s) = .next u ∧
      core.run k (loadHost [.run i] s) = .next t ∧ SameExcept (fun _ => False) u t ∧
      t.host.prog[t.host.pos]? = none ∧ hostVar t.host.vars varSt = regAt 0x01 u ∧
      t.busy = false ∧ t.done = true

/-- 30_encoding.md R89 (derived; log entry 2's order). `wrser` from an idle state loads a serial: SER_LEN is the
number of digits, SER_CHAR their ASCII codes, and no other location changes; a serial of 1 to 12 digits is then valid.
-/
def Obligations.WrserLoadsAValidSerial : Prop :=
  ∀ (s : State) (digits : List (Fin 10)), s.busy = false → s.turns = [] → digits.length ≤ 12 →
    ∃ (k : Nat) (t : State), core.run k (loadHost [.wrser digits] s) = .next t ∧
      t.host.prog[t.host.pos]? = none ∧ regAt 0x04 t = digits.length ∧
      (∀ i, (h : i < digits.length) → regAt (0x10 + i) t = 0x30 + digits[i].val) ∧
      SameExcept (fun n => n = 0x04 ∨ (0x10 ≤ n ∧ n < 0x10 + digits.length)) s t ∧
      (1 ≤ digits.length → SerialOk t)

/-- 30_encoding.md R89 (derived; log entry 2's order). `wrin` from an idle state loads the input bytes: IN_LEN is
their number, IN_BUF holds them, and no other location changes. -/
def Obligations.WrinLoadsTheInputBytes : Prop :=
  ∀ (s : State) (bytes : List Byte), s.busy = false → s.turns = [] → bytes.length ≤ 64 →
    ∃ (k : Nat) (t : State), core.run k (loadHost [.wrin bytes] s) = .next t ∧
      t.host.prog[t.host.pos]? = none ∧ inputList t = bytes ∧
      SameExcept (fun n => n = 0x05 ∨ (0x40 ≤ n ∧ n < 0x40 + bytes.length)) s t

/-- 30_encoding.md R89 (derived; log entries 2 and 8). `rdout -> $o` from an idle state with OUT_LEN at most 64 reads
OUT_LEN into `$n` and OUT_BUF[0..OUT_LEN−1] into the variables of `$o`, and changes no location. -/
def Obligations.RdoutReadsTheOutputBytes : Prop :=
  ∀ (s : State) (dst : HostVar), s.busy = false → s.turns = [] → regAt 0x06 s ≤ 64 → varN < dst →
    ∃ (k : Nat) (t : State), core.run k (loadHost [.rdout dst] s) = .next t ∧
      t.host.prog[t.host.pos]? = none ∧ hostVar t.host.vars varN = regAt 0x06 s ∧
      (∀ i, i < regAt 0x06 s → hostVar t.host.vars (dst + i) = regAt (0x80 + i) s) ∧
      SameExcept (fun _ => False) s t
end

