-- ==== Sys2Proof/Laws/State.lean ====
section
/-! SUPPORT. The update lemmas of State: for each named update, what every field holds after it. -/

namespace Sys2Proof.Machine

variable (s : State)

/-! ## acceptCommand -/

@[simp] theorem acceptCommand_cmd (c : Byte) : (acceptCommand c s).cmd = c := rfl
@[simp] theorem acceptCommand_status (c : Byte) : (acceptCommand c s).status = statusAccepted := rfl
@[simp] theorem acceptCommand_errcode (c : Byte) : (acceptCommand c s).errcode = 0 := rfl
@[simp] theorem acceptCommand_result (c : Byte) : (acceptCommand c s).result = s.result := rfl
@[simp] theorem acceptCommand_serLen (c : Byte) : (acceptCommand c s).serLen = s.serLen := rfl
@[simp] theorem acceptCommand_inLen (c : Byte) : (acceptCommand c s).inLen = s.inLen := rfl
@[simp] theorem acceptCommand_outLen (c : Byte) : (acceptCommand c s).outLen = s.outLen := rfl
@[simp] theorem acceptCommand_csumLo (c : Byte) : (acceptCommand c s).csumLo = s.csumLo := rfl
@[simp] theorem acceptCommand_csumHi (c : Byte) : (acceptCommand c s).csumHi = s.csumHi := rfl
@[simp] theorem acceptCommand_storedLo (c : Byte) : (acceptCommand c s).storedLo = s.storedLo := rfl
@[simp] theorem acceptCommand_storedHi (c : Byte) : (acceptCommand c s).storedHi = s.storedHi := rfl
@[simp] theorem acceptCommand_serChar (c : Byte) : (acceptCommand c s).serChar = s.serChar := rfl
@[simp] theorem acceptCommand_digOut (c : Byte) : (acceptCommand c s).digOut = s.digOut := rfl
@[simp] theorem acceptCommand_footerOut (c : Byte) : (acceptCommand c s).footerOut = s.footerOut := rfl
@[simp] theorem acceptCommand_inBuf (c : Byte) : (acceptCommand c s).inBuf = s.inBuf := rfl
@[simp] theorem acceptCommand_outBuf (c : Byte) : (acceptCommand c s).outBuf = s.outBuf := rfl
@[simp] theorem acceptCommand_rdata (c : Byte) : (acceptCommand c s).rdata = s.rdata := rfl
@[simp] theorem acceptCommand_turns (c : Byte) : (acceptCommand c s).turns = s.turns := rfl
@[simp] theorem acceptCommand_host (c : Byte) : (acceptCommand c s).host = s.host := rfl
@[simp] theorem acceptCommand_draws (c : Byte) : (acceptCommand c s).draws = s.draws := rfl

/-! ## completeCmd -/

@[simp] theorem completeCmd_cmd : (completeCmd s).cmd = s.cmd := rfl
@[simp] theorem completeCmd_status : (completeCmd s).status = statusCompleted s.status := rfl
@[simp] theorem completeCmd_errcode : (completeCmd s).errcode = s.errcode := rfl
@[simp] theorem completeCmd_result : (completeCmd s).result = s.result := rfl
@[simp] theorem completeCmd_serLen : (completeCmd s).serLen = s.serLen := rfl
@[simp] theorem completeCmd_inLen : (completeCmd s).inLen = s.inLen := rfl
@[simp] theorem completeCmd_outLen : (completeCmd s).outLen = s.outLen := rfl
@[simp] theorem completeCmd_csumLo : (completeCmd s).csumLo = s.csumLo := rfl
@[simp] theorem completeCmd_csumHi : (completeCmd s).csumHi = s.csumHi := rfl
@[simp] theorem completeCmd_storedLo : (completeCmd s).storedLo = s.storedLo := rfl
@[simp] theorem completeCmd_storedHi : (completeCmd s).storedHi = s.storedHi := rfl
@[simp] theorem completeCmd_serChar : (completeCmd s).serChar = s.serChar := rfl
@[simp] theorem completeCmd_digOut : (completeCmd s).digOut = s.digOut := rfl
@[simp] theorem completeCmd_footerOut : (completeCmd s).footerOut = s.footerOut := rfl
@[simp] theorem completeCmd_inBuf : (completeCmd s).inBuf = s.inBuf := rfl
@[simp] theorem completeCmd_outBuf : (completeCmd s).outBuf = s.outBuf := rfl
@[simp] theorem completeCmd_rdata : (completeCmd s).rdata = s.rdata := rfl
@[simp] theorem completeCmd_turns : (completeCmd s).turns = s.turns := rfl
@[simp] theorem completeCmd_host : (completeCmd s).host = s.host := rfl
@[simp] theorem completeCmd_draws : (completeCmd s).draws = s.draws := rfl

/-! ## raiseCmdError -/

@[simp] theorem raiseCmdError_cmd (e : CmdError) : (raiseCmdError e s).cmd = s.cmd := rfl
@[simp] theorem raiseCmdError_status (e : CmdError) : (raiseCmdError e s).status = statusCompleted (statusErr s.status) := rfl
@[simp] theorem raiseCmdError_errcode (e : CmdError) : (raiseCmdError e s).errcode = e.code := rfl
@[simp] theorem raiseCmdError_result (e : CmdError) : (raiseCmdError e s).result = s.result := rfl
@[simp] theorem raiseCmdError_serLen (e : CmdError) : (raiseCmdError e s).serLen = s.serLen := rfl
@[simp] theorem raiseCmdError_inLen (e : CmdError) : (raiseCmdError e s).inLen = s.inLen := rfl
@[simp] theorem raiseCmdError_outLen (e : CmdError) : (raiseCmdError e s).outLen = s.outLen := rfl
@[simp] theorem raiseCmdError_csumLo (e : CmdError) : (raiseCmdError e s).csumLo = s.csumLo := rfl
@[simp] theorem raiseCmdError_csumHi (e : CmdError) : (raiseCmdError e s).csumHi = s.csumHi := rfl
@[simp] theorem raiseCmdError_storedLo (e : CmdError) : (raiseCmdError e s).storedLo = s.storedLo := rfl
@[simp] theorem raiseCmdError_storedHi (e : CmdError) : (raiseCmdError e s).storedHi = s.storedHi := rfl
@[simp] theorem raiseCmdError_serChar (e : CmdError) : (raiseCmdError e s).serChar = s.serChar := rfl
@[simp] theorem raiseCmdError_digOut (e : CmdError) : (raiseCmdError e s).digOut = s.digOut := rfl
@[simp] theorem raiseCmdError_footerOut (e : CmdError) : (raiseCmdError e s).footerOut = s.footerOut := rfl
@[simp] theorem raiseCmdError_inBuf (e : CmdError) : (raiseCmdError e s).inBuf = s.inBuf := rfl
@[simp] theorem raiseCmdError_outBuf (e : CmdError) : (raiseCmdError e s).outBuf = s.outBuf := rfl
@[simp] theorem raiseCmdError_rdata (e : CmdError) : (raiseCmdError e s).rdata = s.rdata := rfl
@[simp] theorem raiseCmdError_turns (e : CmdError) : (raiseCmdError e s).turns = s.turns := rfl
@[simp] theorem raiseCmdError_host (e : CmdError) : (raiseCmdError e s).host = s.host := rfl
@[simp] theorem raiseCmdError_draws (e : CmdError) : (raiseCmdError e s).draws = s.draws := rfl

/-! ## setOut -/

@[simp] theorem setOut_cmd (b : List Byte) : (setOut b s).cmd = s.cmd := rfl
@[simp] theorem setOut_status (b : List Byte) : (setOut b s).status = s.status := rfl
@[simp] theorem setOut_errcode (b : List Byte) : (setOut b s).errcode = s.errcode := rfl
@[simp] theorem setOut_result (b : List Byte) : (setOut b s).result = s.result := rfl
@[simp] theorem setOut_serLen (b : List Byte) : (setOut b s).serLen = s.serLen := rfl
@[simp] theorem setOut_inLen (b : List Byte) : (setOut b s).inLen = s.inLen := rfl
@[simp] theorem setOut_outLen (b : List Byte) : (setOut b s).outLen = BitVec.ofNat 8 b.length := rfl
@[simp] theorem setOut_csumLo (b : List Byte) : (setOut b s).csumLo = s.csumLo := rfl
@[simp] theorem setOut_csumHi (b : List Byte) : (setOut b s).csumHi = s.csumHi := rfl
@[simp] theorem setOut_storedLo (b : List Byte) : (setOut b s).storedLo = s.storedLo := rfl
@[simp] theorem setOut_storedHi (b : List Byte) : (setOut b s).storedHi = s.storedHi := rfl
@[simp] theorem setOut_serChar (b : List Byte) : (setOut b s).serChar = s.serChar := rfl
@[simp] theorem setOut_digOut (b : List Byte) : (setOut b s).digOut = s.digOut := rfl
@[simp] theorem setOut_footerOut (b : List Byte) : (setOut b s).footerOut = s.footerOut := rfl
@[simp] theorem setOut_inBuf (b : List Byte) : (setOut b s).inBuf = s.inBuf := rfl
@[simp] theorem setOut_outBuf (b : List Byte) : (setOut b s).outBuf = fillBytes 64 b := rfl
@[simp] theorem setOut_rdata (b : List Byte) : (setOut b s).rdata = s.rdata := rfl
@[simp] theorem setOut_turns (b : List Byte) : (setOut b s).turns = s.turns := rfl
@[simp] theorem setOut_host (b : List Byte) : (setOut b s).host = s.host := rfl
@[simp] theorem setOut_draws (b : List Byte) : (setOut b s).draws = s.draws := rfl

/-! ## setCsum -/

@[simp] theorem setCsum_cmd (w : Word) : (setCsum w s).cmd = s.cmd := rfl
@[simp] theorem setCsum_status (w : Word) : (setCsum w s).status = s.status := rfl
@[simp] theorem setCsum_errcode (w : Word) : (setCsum w s).errcode = s.errcode := rfl
@[simp] theorem setCsum_result (w : Word) : (setCsum w s).result = s.result := rfl
@[simp] theorem setCsum_serLen (w : Word) : (setCsum w s).serLen = s.serLen := rfl
@[simp] theorem setCsum_inLen (w : Word) : (setCsum w s).inLen = s.inLen := rfl
@[simp] theorem setCsum_outLen (w : Word) : (setCsum w s).outLen = s.outLen := rfl
@[simp] theorem setCsum_csumLo (w : Word) : (setCsum w s).csumLo = loByte w := rfl
@[simp] theorem setCsum_csumHi (w : Word) : (setCsum w s).csumHi = hiByte w := rfl
@[simp] theorem setCsum_storedLo (w : Word) : (setCsum w s).storedLo = s.storedLo := rfl
@[simp] theorem setCsum_storedHi (w : Word) : (setCsum w s).storedHi = s.storedHi := rfl
@[simp] theorem setCsum_serChar (w : Word) : (setCsum w s).serChar = s.serChar := rfl
@[simp] theorem setCsum_digOut (w : Word) : (setCsum w s).digOut = s.digOut := rfl
@[simp] theorem setCsum_footerOut (w : Word) : (setCsum w s).footerOut = s.footerOut := rfl
@[simp] theorem setCsum_inBuf (w : Word) : (setCsum w s).inBuf = s.inBuf := rfl
@[simp] theorem setCsum_outBuf (w : Word) : (setCsum w s).outBuf = s.outBuf := rfl
@[simp] theorem setCsum_rdata (w : Word) : (setCsum w s).rdata = s.rdata := rfl
@[simp] theorem setCsum_turns (w : Word) : (setCsum w s).turns = s.turns := rfl
@[simp] theorem setCsum_host (w : Word) : (setCsum w s).host = s.host := rfl
@[simp] theorem setCsum_draws (w : Word) : (setCsum w s).draws = s.draws := rfl

/-! ## setStored -/

@[simp] theorem setStored_cmd (w : Word) : (setStored w s).cmd = s.cmd := rfl
@[simp] theorem setStored_status (w : Word) : (setStored w s).status = s.status := rfl
@[simp] theorem setStored_errcode (w : Word) : (setStored w s).errcode = s.errcode := rfl
@[simp] theorem setStored_result (w : Word) : (setStored w s).result = s.result := rfl
@[simp] theorem setStored_serLen (w : Word) : (setStored w s).serLen = s.serLen := rfl
@[simp] theorem setStored_inLen (w : Word) : (setStored w s).inLen = s.inLen := rfl
@[simp] theorem setStored_outLen (w : Word) : (setStored w s).outLen = s.outLen := rfl
@[simp] theorem setStored_csumLo (w : Word) : (setStored w s).csumLo = s.csumLo := rfl
@[simp] theorem setStored_csumHi (w : Word) : (setStored w s).csumHi = s.csumHi := rfl
@[simp] theorem setStored_storedLo (w : Word) : (setStored w s).storedLo = loByte w := rfl
@[simp] theorem setStored_storedHi (w : Word) : (setStored w s).storedHi = hiByte w := rfl
@[simp] theorem setStored_serChar (w : Word) : (setStored w s).serChar = s.serChar := rfl
@[simp] theorem setStored_digOut (w : Word) : (setStored w s).digOut = s.digOut := rfl
@[simp] theorem setStored_footerOut (w : Word) : (setStored w s).footerOut = s.footerOut := rfl
@[simp] theorem setStored_inBuf (w : Word) : (setStored w s).inBuf = s.inBuf := rfl
@[simp] theorem setStored_outBuf (w : Word) : (setStored w s).outBuf = s.outBuf := rfl
@[simp] theorem setStored_rdata (w : Word) : (setStored w s).rdata = s.rdata := rfl
@[simp] theorem setStored_turns (w : Word) : (setStored w s).turns = s.turns := rfl
@[simp] theorem setStored_host (w : Word) : (setStored w s).host = s.host := rfl
@[simp] theorem setStored_draws (w : Word) : (setStored w s).draws = s.draws := rfl

/-! ## setResult -/

@[simp] theorem setResult_cmd (v : Byte) : (setResult v s).cmd = s.cmd := rfl
@[simp] theorem setResult_status (v : Byte) : (setResult v s).status = s.status := rfl
@[simp] theorem setResult_errcode (v : Byte) : (setResult v s).errcode = s.errcode := rfl
@[simp] theorem setResult_result (v : Byte) : (setResult v s).result = v := rfl
@[simp] theorem setResult_serLen (v : Byte) : (setResult v s).serLen = s.serLen := rfl
@[simp] theorem setResult_inLen (v : Byte) : (setResult v s).inLen = s.inLen := rfl
@[simp] theorem setResult_outLen (v : Byte) : (setResult v s).outLen = s.outLen := rfl
@[simp] theorem setResult_csumLo (v : Byte) : (setResult v s).csumLo = s.csumLo := rfl
@[simp] theorem setResult_csumHi (v : Byte) : (setResult v s).csumHi = s.csumHi := rfl
@[simp] theorem setResult_storedLo (v : Byte) : (setResult v s).storedLo = s.storedLo := rfl
@[simp] theorem setResult_storedHi (v : Byte) : (setResult v s).storedHi = s.storedHi := rfl
@[simp] theorem setResult_serChar (v : Byte) : (setResult v s).serChar = s.serChar := rfl
@[simp] theorem setResult_digOut (v : Byte) : (setResult v s).digOut = s.digOut := rfl
@[simp] theorem setResult_footerOut (v : Byte) : (setResult v s).footerOut = s.footerOut := rfl
@[simp] theorem setResult_inBuf (v : Byte) : (setResult v s).inBuf = s.inBuf := rfl
@[simp] theorem setResult_outBuf (v : Byte) : (setResult v s).outBuf = s.outBuf := rfl
@[simp] theorem setResult_rdata (v : Byte) : (setResult v s).rdata = s.rdata := rfl
@[simp] theorem setResult_turns (v : Byte) : (setResult v s).turns = s.turns := rfl
@[simp] theorem setResult_host (v : Byte) : (setResult v s).host = s.host := rfl
@[simp] theorem setResult_draws (v : Byte) : (setResult v s).draws = s.draws := rfl

/-! ## setDigits -/

@[simp] theorem setDigits_cmd (d : List Nibble) : (setDigits d s).cmd = s.cmd := rfl
@[simp] theorem setDigits_status (d : List Nibble) : (setDigits d s).status = s.status := rfl
@[simp] theorem setDigits_errcode (d : List Nibble) : (setDigits d s).errcode = s.errcode := rfl
@[simp] theorem setDigits_result (d : List Nibble) : (setDigits d s).result = s.result := rfl
@[simp] theorem setDigits_serLen (d : List Nibble) : (setDigits d s).serLen = s.serLen := rfl
@[simp] theorem setDigits_inLen (d : List Nibble) : (setDigits d s).inLen = s.inLen := rfl
@[simp] theorem setDigits_outLen (d : List Nibble) : (setDigits d s).outLen = s.outLen := rfl
@[simp] theorem setDigits_csumLo (d : List Nibble) : (setDigits d s).csumLo = s.csumLo := rfl
@[simp] theorem setDigits_csumHi (d : List Nibble) : (setDigits d s).csumHi = s.csumHi := rfl
@[simp] theorem setDigits_storedLo (d : List Nibble) : (setDigits d s).storedLo = s.storedLo := rfl
@[simp] theorem setDigits_storedHi (d : List Nibble) : (setDigits d s).storedHi = s.storedHi := rfl
@[simp] theorem setDigits_serChar (d : List Nibble) : (setDigits d s).serChar = s.serChar := rfl
@[simp] theorem setDigits_digOut (d : List Nibble) : (setDigits d s).digOut = fillBytes 12 (d.map fun x => x.zeroExtend 8) := rfl
@[simp] theorem setDigits_footerOut (d : List Nibble) : (setDigits d s).footerOut = s.footerOut := rfl
@[simp] theorem setDigits_inBuf (d : List Nibble) : (setDigits d s).inBuf = s.inBuf := rfl
@[simp] theorem setDigits_outBuf (d : List Nibble) : (setDigits d s).outBuf = s.outBuf := rfl
@[simp] theorem setDigits_rdata (d : List Nibble) : (setDigits d s).rdata = s.rdata := rfl
@[simp] theorem setDigits_turns (d : List Nibble) : (setDigits d s).turns = s.turns := rfl
@[simp] theorem setDigits_host (d : List Nibble) : (setDigits d s).host = s.host := rfl
@[simp] theorem setDigits_draws (d : List Nibble) : (setDigits d s).draws = s.draws := rfl

/-! ## setFooterOut -/

@[simp] theorem setFooterOut_cmd (b : List Byte) : (setFooterOut b s).cmd = s.cmd := rfl
@[simp] theorem setFooterOut_status (b : List Byte) : (setFooterOut b s).status = s.status := rfl
@[simp] theorem setFooterOut_errcode (b : List Byte) : (setFooterOut b s).errcode = s.errcode := rfl
@[simp] theorem setFooterOut_result (b : List Byte) : (setFooterOut b s).result = s.result := rfl
@[simp] theorem setFooterOut_serLen (b : List Byte) : (setFooterOut b s).serLen = s.serLen := rfl
@[simp] theorem setFooterOut_inLen (b : List Byte) : (setFooterOut b s).inLen = s.inLen := rfl
@[simp] theorem setFooterOut_outLen (b : List Byte) : (setFooterOut b s).outLen = s.outLen := rfl
@[simp] theorem setFooterOut_csumLo (b : List Byte) : (setFooterOut b s).csumLo = s.csumLo := rfl
@[simp] theorem setFooterOut_csumHi (b : List Byte) : (setFooterOut b s).csumHi = s.csumHi := rfl
@[simp] theorem setFooterOut_storedLo (b : List Byte) : (setFooterOut b s).storedLo = s.storedLo := rfl
@[simp] theorem setFooterOut_storedHi (b : List Byte) : (setFooterOut b s).storedHi = s.storedHi := rfl
@[simp] theorem setFooterOut_serChar (b : List Byte) : (setFooterOut b s).serChar = s.serChar := rfl
@[simp] theorem setFooterOut_digOut (b : List Byte) : (setFooterOut b s).digOut = s.digOut := rfl
@[simp] theorem setFooterOut_footerOut (b : List Byte) : (setFooterOut b s).footerOut = fillBytes 8 b := rfl
@[simp] theorem setFooterOut_inBuf (b : List Byte) : (setFooterOut b s).inBuf = s.inBuf := rfl
@[simp] theorem setFooterOut_outBuf (b : List Byte) : (setFooterOut b s).outBuf = s.outBuf := rfl
@[simp] theorem setFooterOut_rdata (b : List Byte) : (setFooterOut b s).rdata = s.rdata := rfl
@[simp] theorem setFooterOut_turns (b : List Byte) : (setFooterOut b s).turns = s.turns := rfl
@[simp] theorem setFooterOut_host (b : List Byte) : (setFooterOut b s).host = s.host := rfl
@[simp] theorem setFooterOut_draws (b : List Byte) : (setFooterOut b s).draws = s.draws := rfl

/-! ## codecReset -/

@[simp] theorem codecReset_cmd : (codecReset s).cmd = 0 := rfl
@[simp] theorem codecReset_status : (codecReset s).status = 0 := rfl
@[simp] theorem codecReset_errcode : (codecReset s).errcode = 0 := rfl
@[simp] theorem codecReset_result : (codecReset s).result = 0 := rfl
@[simp] theorem codecReset_serLen : (codecReset s).serLen = 0 := rfl
@[simp] theorem codecReset_inLen : (codecReset s).inLen = 0 := rfl
@[simp] theorem codecReset_outLen : (codecReset s).outLen = 0 := rfl
@[simp] theorem codecReset_csumLo : (codecReset s).csumLo = 0 := rfl
@[simp] theorem codecReset_csumHi : (codecReset s).csumHi = 0 := rfl
@[simp] theorem codecReset_storedLo : (codecReset s).storedLo = 0 := rfl
@[simp] theorem codecReset_storedHi : (codecReset s).storedHi = 0 := rfl
@[simp] theorem codecReset_serChar : (codecReset s).serChar = Vector.replicate 12 0 := rfl
@[simp] theorem codecReset_digOut : (codecReset s).digOut = Vector.replicate 12 0 := rfl
@[simp] theorem codecReset_footerOut : (codecReset s).footerOut = Vector.replicate 8 0 := rfl
@[simp] theorem codecReset_inBuf : (codecReset s).inBuf = Vector.replicate 64 0 := rfl
@[simp] theorem codecReset_outBuf : (codecReset s).outBuf = Vector.replicate 64 0 := rfl
@[simp] theorem codecReset_rdata : (codecReset s).rdata = none := rfl
@[simp] theorem codecReset_turns : (codecReset s).turns = s.turns := rfl
@[simp] theorem codecReset_host : (codecReset s).host = s.host := rfl
@[simp] theorem codecReset_draws : (codecReset s).draws = s.draws := rfl

/-! ## hostAt -/

@[simp] theorem hostAt_cmd (k : Nat) : (hostAt k s).cmd = s.cmd := rfl
@[simp] theorem hostAt_status (k : Nat) : (hostAt k s).status = s.status := rfl
@[simp] theorem hostAt_errcode (k : Nat) : (hostAt k s).errcode = s.errcode := rfl
@[simp] theorem hostAt_result (k : Nat) : (hostAt k s).result = s.result := rfl
@[simp] theorem hostAt_serLen (k : Nat) : (hostAt k s).serLen = s.serLen := rfl
@[simp] theorem hostAt_inLen (k : Nat) : (hostAt k s).inLen = s.inLen := rfl
@[simp] theorem hostAt_outLen (k : Nat) : (hostAt k s).outLen = s.outLen := rfl
@[simp] theorem hostAt_csumLo (k : Nat) : (hostAt k s).csumLo = s.csumLo := rfl
@[simp] theorem hostAt_csumHi (k : Nat) : (hostAt k s).csumHi = s.csumHi := rfl
@[simp] theorem hostAt_storedLo (k : Nat) : (hostAt k s).storedLo = s.storedLo := rfl
@[simp] theorem hostAt_storedHi (k : Nat) : (hostAt k s).storedHi = s.storedHi := rfl
@[simp] theorem hostAt_serChar (k : Nat) : (hostAt k s).serChar = s.serChar := rfl
@[simp] theorem hostAt_digOut (k : Nat) : (hostAt k s).digOut = s.digOut := rfl
@[simp] theorem hostAt_footerOut (k : Nat) : (hostAt k s).footerOut = s.footerOut := rfl
@[simp] theorem hostAt_inBuf (k : Nat) : (hostAt k s).inBuf = s.inBuf := rfl
@[simp] theorem hostAt_outBuf (k : Nat) : (hostAt k s).outBuf = s.outBuf := rfl
@[simp] theorem hostAt_rdata (k : Nat) : (hostAt k s).rdata = s.rdata := rfl
@[simp] theorem hostAt_turns (k : Nat) : (hostAt k s).turns = s.turns := rfl
@[simp] theorem hostAt_host (k : Nat) : (hostAt k s).host = { s.host with pos := k } := rfl
@[simp] theorem hostAt_draws (k : Nat) : (hostAt k s).draws = s.draws := rfl

/-! ## hostNext -/

@[simp] theorem hostNext_cmd : (hostNext s).cmd = s.cmd := rfl
@[simp] theorem hostNext_status : (hostNext s).status = s.status := rfl
@[simp] theorem hostNext_errcode : (hostNext s).errcode = s.errcode := rfl
@[simp] theorem hostNext_result : (hostNext s).result = s.result := rfl
@[simp] theorem hostNext_serLen : (hostNext s).serLen = s.serLen := rfl
@[simp] theorem hostNext_inLen : (hostNext s).inLen = s.inLen := rfl
@[simp] theorem hostNext_outLen : (hostNext s).outLen = s.outLen := rfl
@[simp] theorem hostNext_csumLo : (hostNext s).csumLo = s.csumLo := rfl
@[simp] theorem hostNext_csumHi : (hostNext s).csumHi = s.csumHi := rfl
@[simp] theorem hostNext_storedLo : (hostNext s).storedLo = s.storedLo := rfl
@[simp] theorem hostNext_storedHi : (hostNext s).storedHi = s.storedHi := rfl
@[simp] theorem hostNext_serChar : (hostNext s).serChar = s.serChar := rfl
@[simp] theorem hostNext_digOut : (hostNext s).digOut = s.digOut := rfl
@[simp] theorem hostNext_footerOut : (hostNext s).footerOut = s.footerOut := rfl
@[simp] theorem hostNext_inBuf : (hostNext s).inBuf = s.inBuf := rfl
@[simp] theorem hostNext_outBuf : (hostNext s).outBuf = s.outBuf := rfl
@[simp] theorem hostNext_rdata : (hostNext s).rdata = s.rdata := rfl
@[simp] theorem hostNext_turns : (hostNext s).turns = s.turns := rfl
@[simp] theorem hostNext_host : (hostNext s).host = { s.host with pos := s.host.pos + 1 } := rfl
@[simp] theorem hostNext_draws : (hostNext s).draws = s.draws := rfl

/-! ## hostAssign -/

@[simp] theorem hostAssign_cmd (x : HostVar) (v : Nat) : (hostAssign x v s).cmd = s.cmd := rfl
@[simp] theorem hostAssign_status (x : HostVar) (v : Nat) : (hostAssign x v s).status = s.status := rfl
@[simp] theorem hostAssign_errcode (x : HostVar) (v : Nat) : (hostAssign x v s).errcode = s.errcode := rfl
@[simp] theorem hostAssign_result (x : HostVar) (v : Nat) : (hostAssign x v s).result = s.result := rfl
@[simp] theorem hostAssign_serLen (x : HostVar) (v : Nat) : (hostAssign x v s).serLen = s.serLen := rfl
@[simp] theorem hostAssign_inLen (x : HostVar) (v : Nat) : (hostAssign x v s).inLen = s.inLen := rfl
@[simp] theorem hostAssign_outLen (x : HostVar) (v : Nat) : (hostAssign x v s).outLen = s.outLen := rfl
@[simp] theorem hostAssign_csumLo (x : HostVar) (v : Nat) : (hostAssign x v s).csumLo = s.csumLo := rfl
@[simp] theorem hostAssign_csumHi (x : HostVar) (v : Nat) : (hostAssign x v s).csumHi = s.csumHi := rfl
@[simp] theorem hostAssign_storedLo (x : HostVar) (v : Nat) : (hostAssign x v s).storedLo = s.storedLo := rfl
@[simp] theorem hostAssign_storedHi (x : HostVar) (v : Nat) : (hostAssign x v s).storedHi = s.storedHi := rfl
@[simp] theorem hostAssign_serChar (x : HostVar) (v : Nat) : (hostAssign x v s).serChar = s.serChar := rfl
@[simp] theorem hostAssign_digOut (x : HostVar) (v : Nat) : (hostAssign x v s).digOut = s.digOut := rfl
@[simp] theorem hostAssign_footerOut (x : HostVar) (v : Nat) : (hostAssign x v s).footerOut = s.footerOut := rfl
@[simp] theorem hostAssign_inBuf (x : HostVar) (v : Nat) : (hostAssign x v s).inBuf = s.inBuf := rfl
@[simp] theorem hostAssign_outBuf (x : HostVar) (v : Nat) : (hostAssign x v s).outBuf = s.outBuf := rfl
@[simp] theorem hostAssign_rdata (x : HostVar) (v : Nat) : (hostAssign x v s).rdata = s.rdata := rfl
@[simp] theorem hostAssign_turns (x : HostVar) (v : Nat) : (hostAssign x v s).turns = s.turns := rfl
@[simp] theorem hostAssign_host (x : HostVar) (v : Nat) : (hostAssign x v s).host = { s.host with vars := setHostVar x v s.host.vars } := rfl
@[simp] theorem hostAssign_draws (x : HostVar) (v : Nat) : (hostAssign x v s).draws = s.draws := rfl

end Sys2Proof.Machine
end

