-- ==== Sys2Proof/Laws/RegisterMap.lean ====
section
/-! SUPPORT. The register map: the address of each location, reads at the addresses, and the one lemma that turns equal
registers into equal reads (a frame). -/

namespace Sys2Proof.Machine

/-- The address of a location; a reserved location has many, and 0xFF stands for them. -/
def locAddr : Loc → Nat
  | .cmd => 0x00
  | .status => 0x01
  | .errcode => 0x02
  | .result => 0x03
  | .serLen => 0x04
  | .inLen => 0x05
  | .outLen => 0x06
  | .csumLo => 0x08
  | .csumHi => 0x09
  | .storedLo => 0x0A
  | .storedHi => 0x0B
  | .serChar i => 0x10 + i
  | .digOut i => 0x20 + i
  | .footerOut i => 0x30 + i
  | .inBuf i => 0x40 + i
  | .outBuf i => 0x80 + i
  | .reserved => 0xFF

/-- A location found at an address has that address. -/
theorem locAddr_locate (a : Byte) (h : locate a ≠ .reserved) : locAddr (locate a) = a.toNat := by
  revert a; decide

/-- The address of a location leads back to it. -/
theorem locate_locAddr (l : Loc) : locate (BitVec.ofNat 8 (locAddr l)) = l := by
  cases l with
  | serChar i => revert i; decide
  | digOut i => revert i; decide
  | footerOut i => revert i; decide
  | inBuf i => revert i; decide
  | outBuf i => revert i; decide
  | _ => decide

/-- The reserved locations are those of 10_state.md R33. -/
theorem locate_reserved_iff (a : Byte) : locate a = .reserved ↔ ReservedRegs a.toNat := by
  revert a; unfold ReservedRegs; decide

/-- The RW locations other than CMD are the input registers. -/
theorem locAccess_rw_iff (a : Byte) : locAccess (locate a) = .rw ↔ a = 0 ∨ InputRegs a.toNat := by
  revert a; unfold InputRegs; decide

/-- A read at the address of a location reads the location. -/
theorem memRead_locAddr (l : Loc) (s : State) : memRead (BitVec.ofNat 8 (locAddr l)) s = readLoc l s := by
  simp [memRead, locate_locAddr]

@[simp] theorem memRead_cmd (s : State) : memRead 0x00#8 s = s.cmd := rfl
@[simp] theorem memRead_status (s : State) : memRead 0x01#8 s = s.status := rfl
@[simp] theorem memRead_errcode (s : State) : memRead 0x02#8 s = s.errcode := rfl
@[simp] theorem memRead_result (s : State) : memRead 0x03#8 s = s.result := rfl
@[simp] theorem memRead_serLen (s : State) : memRead 0x04#8 s = s.serLen := rfl
@[simp] theorem memRead_inLen (s : State) : memRead 0x05#8 s = s.inLen := rfl
@[simp] theorem memRead_outLen (s : State) : memRead 0x06#8 s = s.outLen := rfl
@[simp] theorem memRead_csumLo (s : State) : memRead 0x08#8 s = s.csumLo := rfl
@[simp] theorem memRead_csumHi (s : State) : memRead 0x09#8 s = s.csumHi := rfl
@[simp] theorem memRead_storedLo (s : State) : memRead 0x0A#8 s = s.storedLo := rfl
@[simp] theorem memRead_storedHi (s : State) : memRead 0x0B#8 s = s.storedHi := rfl

theorem memRead_serChar (s : State) (i : Nat) (h : i < 12) : memRead (addrAt 0x10 i) s = s.serChar[i] :=
  memRead_locAddr (.serChar ⟨i, h⟩) s
theorem memRead_digOut (s : State) (i : Nat) (h : i < 12) : memRead (addrAt 0x20 i) s = s.digOut[i] :=
  memRead_locAddr (.digOut ⟨i, h⟩) s
theorem memRead_footerOut (s : State) (i : Nat) (h : i < 8) : memRead (addrAt 0x30 i) s = s.footerOut[i] :=
  memRead_locAddr (.footerOut ⟨i, h⟩) s
theorem memRead_inBuf (s : State) (i : Nat) (h : i < 64) : memRead (addrAt 0x40 i) s = s.inBuf[i] :=
  memRead_locAddr (.inBuf ⟨i, h⟩) s
theorem memRead_outBuf (s : State) (i : Nat) (h : i < 64) : memRead (addrAt 0x80 i) s = s.outBuf[i] :=
  memRead_locAddr (.outBuf ⟨i, h⟩) s

theorem memRead_reserved (s : State) (a : Byte) (h : ReservedRegs a.toNat) : memRead a s = 0 := by
  simp [memRead, (locate_reserved_iff a).2 h, readLoc]

/-- A FRAME FROM REGISTERS: where the registers outside `P` are equal, so is every read outside `P`. -/
theorem sameExcept_of_readLoc {P : Nat → Prop} {s t : State}
    (h : ∀ l : Loc, l ≠ .reserved → ¬ P (locAddr l) → readLoc l t = readLoc l s) : SameExcept P s t := by
  intro a hP
  by_cases hr : locate a = .reserved
  · simp [memRead, hr, readLoc]
  · exact h _ hr (by rwa [locAddr_locate a hr])

theorem SameExcept.refl (P : Nat → Prop) (s : State) : SameExcept P s s := fun _ _ => rfl

theorem SameExcept.mono {P Q : Nat → Prop} {s t : State} (h : SameExcept P s t) (hPQ : ∀ n, P n → Q n) :
    SameExcept Q s t := fun a ha => h a fun hp => ha (hPQ _ hp)

theorem SameExcept.trans {P : Nat → Prop} {s t u : State} (h : SameExcept P s t) (h' : SameExcept P t u) :
    SameExcept P s u := fun a ha => (h' a ha).trans (h a ha)

/-! ## The byte arrays -/

@[simp] theorem fillBytes_getElem (n : Nat) (b : List Byte) (i : Nat) (h : i < n) :
    (fillBytes n b)[i] = b.getD i 0 := by
  simp [fillBytes]

/-! ## The frames of the named updates: each one's registers, and no other byte -/

theorem acceptCommand_frame (c : Byte) (s : State) :
    SameExcept (fun n => n = 0x00 ∨ StatusRegs n) s (acceptCommand c s) :=
  sameExcept_of_readLoc fun l _ hP => by cases l <;> simp_all [readLoc, locAddr, StatusRegs]

theorem completeCmd_frame (s : State) : SameExcept (fun n => n = 0x01) s (completeCmd s) :=
  sameExcept_of_readLoc fun l _ hP => by cases l <;> simp_all [readLoc, locAddr]

theorem raiseCmdError_frame (e : CmdError) (s : State) : SameExcept StatusRegs s (raiseCmdError e s) :=
  sameExcept_of_readLoc fun l _ hP => by cases l <;> simp_all [readLoc, locAddr, StatusRegs]

theorem setOut_frame (b : List Byte) (s : State) : SameExcept OutRegs s (setOut b s) :=
  sameExcept_of_readLoc fun l _ hP => by
    cases l <;> simp_all [readLoc, locAddr, OutRegs]
    omega

theorem setCsum_frame (w : Word) (s : State) : SameExcept CsumRegs s (setCsum w s) :=
  sameExcept_of_readLoc fun l _ hP => by cases l <;> simp_all [readLoc, locAddr, CsumRegs]

theorem setStored_frame (w : Word) (s : State) : SameExcept (fun n => n = 0x0A ∨ n = 0x0B) s (setStored w s) :=
  sameExcept_of_readLoc fun l _ hP => by cases l <;> simp_all [readLoc, locAddr]

theorem setResult_frame (v : Byte) (s : State) : SameExcept (fun n => n = 0x03) s (setResult v s) :=
  sameExcept_of_readLoc fun l _ hP => by cases l <;> simp_all [readLoc, locAddr]

theorem setDigits_frame (d : List Nibble) (s : State) :
    SameExcept (fun n => 0x20 ≤ n ∧ n < 0x2C) s (setDigits d s) :=
  sameExcept_of_readLoc fun l _ hP => by
    cases l <;> simp_all [readLoc, locAddr]
    omega

theorem setFooterOut_frame (b : List Byte) (s : State) :
    SameExcept (fun n => 0x30 ≤ n ∧ n < 0x38) s (setFooterOut b s) :=
  sameExcept_of_readLoc fun l _ hP => by
    cases l <;> simp_all [readLoc, locAddr]
    omega

end Sys2Proof.Machine
end

