-- ==== Sys2Proof/Laws/Bus.lean ====
section
/-! SUPPORT. The bus and the end of a completion step: what each shared operation can do, once, for the proofs to
cite. -/

namespace Sys2Proof.Machine

/-! ## The fields of STATUS -/

theorem statusCompleted_bit (st : Byte) (k : Nat) :
    (statusCompleted st).getLsbD k = if k = 0 then false else if k = 1 then true else st.getLsbD k := by
  by_cases hk : k < 8
  · revert k; revert st; decide
  · rw [BitVec.getLsbD_of_ge _ k (by omega), BitVec.getLsbD_of_ge st k (by omega)]
    simp [show k ≠ 0 by omega, show k ≠ 1 by omega]

theorem statusErr_bit (st : Byte) (k : Nat) :
    (statusErr st).getLsbD k = if k = 2 then true else st.getLsbD k := by
  by_cases hk : k < 8
  · revert k; revert st; decide
  · rw [BitVec.getLsbD_of_ge _ k (by omega), BitVec.getLsbD_of_ge st k (by omega)]
    simp [show k ≠ 2 by omega]

theorem statusWign_bit (st : Byte) (k : Nat) :
    (statusWign st).getLsbD k = if k = 3 then true else st.getLsbD k := by
  by_cases hk : k < 8
  · revert k; revert st; decide
  · rw [BitVec.getLsbD_of_ge _ k (by omega), BitVec.getLsbD_of_ge st k (by omega)]
    simp [show k ≠ 3 by omega]

/-- Acceptance: BUSY = 1 and the other fields 0. -/
@[simp] theorem acceptCommand_flags (c : Byte) (s : State) :
    (acceptCommand c s).busy = true ∧ (acceptCommand c s).done = false ∧ (acceptCommand c s).err = false ∧
      (acceptCommand c s).wign = false := by
  simp only [State.busy, State.done, State.err, State.wign, acceptCommand_status]
  decide

/-! ## Host writes -/

theorem memWrite_busy {s : State} (h : s.busy = true) (a v : Byte) :
    memWrite a v s = { s with status := statusWign s.status } := by
  simp [memWrite, h]

theorem memWrite_accept {s : State} (h : s.busy = false) (v : Byte) : memWrite 0 v s = acceptCommand v s := by
  simp [memWrite, h]

theorem memWrite_input {s : State} (h : s.busy = false) {a : Byte} (ha : InputRegs a.toNat) (v : Byte) :
    memWrite a v s = writeLoc (locate a) v s := by
  have h0 : a ≠ 0 := fun h0 => by subst h0; simp [InputRegs] at ha
  rw [memWrite, if_neg (by simp [h]), if_neg h0, if_pos ((locAccess_rw_iff a).2 (.inr ha))]

theorem memWrite_other {s : State} (h : s.busy = false) {a : Byte} (h0 : a ≠ 0) (ha : ¬ InputRegs a.toNat) (v : Byte) :
    memWrite a v s = s := by
  rw [memWrite, if_neg (by simp [h]), if_neg h0, if_neg (mt (locAccess_rw_iff a).1 (by tauto))]

/-- Everything a host write can do. -/
theorem memWrite_cases (a v : Byte) (s : State) :
    (s.busy = true ∧ memWrite a v s = { s with status := statusWign s.status }) ∨
    (s.busy = false ∧ a = 0 ∧ memWrite a v s = acceptCommand v s) ∨
    (s.busy = false ∧ InputRegs a.toNat ∧ memWrite a v s = writeLoc (locate a) v s) ∨
    (s.busy = false ∧ memWrite a v s = s) := by
  cases h : s.busy
  · by_cases h0 : a = 0
    · subst h0; exact .inr (.inl ⟨rfl, rfl, memWrite_accept h v⟩)
    · by_cases ha : InputRegs a.toNat
      · exact .inr (.inr (.inl ⟨rfl, ha, memWrite_input h ha v⟩))
      · exact .inr (.inr (.inr ⟨rfl, memWrite_other h h0 ha v⟩))
  · exact .inl ⟨rfl, memWrite_busy h a v⟩

theorem wign_frame (s : State) : SameExcept (fun n => n = 0x01) s { s with status := statusWign s.status } :=
  sameExcept_of_readLoc fun l _ hP => by cases l <;> simp_all [readLoc, locAddr]

/-- A store to an input register: read back there, and no other byte changed. -/
theorem writeLoc_input (a v : Byte) (s : State) (ha : InputRegs a.toNat) :
    memRead a (writeLoc (locate a) v s) = v ∧ SameExcept (fun n => n = a.toNat) s (writeLoc (locate a) v s) := by
  have hacc := (locAccess_rw_iff a).2 (.inr ha)
  have hne : locate a ≠ .reserved := fun h => by simp [h, locAccess] at hacc
  have haddr := locAddr_locate a hne
  have hcmd : locate a ≠ .cmd := fun h => by
    simp only [h, locAddr] at haddr
    simp [← haddr, InputRegs] at ha
  refine ⟨?_, sameExcept_of_readLoc fun l _ hP => ?_⟩
  · unfold memRead
    generalize locate a = m at *
    cases m <;> simp_all [locAccess, writeLoc, readLoc]
  · rw [← haddr] at hP
    generalize locate a = m at *
    cases m <;> cases l <;> simp_all [locAccess, writeLoc, readLoc, locAddr, Vector.getElem_set] <;>
      (intro h; exact absurd h.symm (by omega))

/-- A store changes nothing but the codec's input registers. -/
theorem writeLoc_fields (l : Loc) (v : Byte) (s : State) :
    (writeLoc l v s).cmd = s.cmd ∧ (writeLoc l v s).status = s.status ∧ (writeLoc l v s).errcode = s.errcode ∧
    (writeLoc l v s).result = s.result ∧ (writeLoc l v s).outLen = s.outLen ∧ (writeLoc l v s).digOut = s.digOut ∧
    (writeLoc l v s).outBuf = s.outBuf ∧ OutsideSame s (writeLoc l v s) := by
  cases l <;> simp [writeLoc, OutsideSame]

/-- A host write leaves what is outside the codec alone. -/
theorem memWrite_outside (a v : Byte) (s : State) : OutsideSame s (memWrite a v s) := by
  rcases memWrite_cases a v s with ⟨_, h⟩ | ⟨_, _, h⟩ | ⟨_, _, h⟩ | ⟨_, h⟩ <;> rw [h]
  · exact ⟨rfl, rfl, rfl, rfl⟩
  · exact ⟨rfl, rfl, rfl, rfl⟩
  · exact (writeLoc_fields _ _ _).2.2.2.2.2.2.2
  · exact ⟨rfl, rfl, rfl, rfl⟩

/-! ## Bus cycles -/

/-- Everything a cycle without reset does to the codec: a host write, or nothing. -/
theorem busCycle_cases (p : Ports) (s : State) (h : p.rst = false) :
    ∃ r d, busCycle p s = { (if p.we then memWrite p.addr p.wdata s else s) with rdata := r, draws := d } := by
  unfold busCycle
  rw [if_neg (by simp [h])]
  split
  · split
    · exact ⟨_, _, rfl⟩
    · exact ⟨_, (memWrite p.addr p.wdata s).draws, rfl⟩
  · split
    · exact ⟨_, s.draws, rfl⟩
    · exact ⟨_, s.draws, rfl⟩

@[simp] theorem busCycle_rst (p : Ports) (s : State) (h : p.rst = true) : busCycle p s = codecReset s := by
  simp [busCycle, h]

@[simp] theorem busCycle_write (a v : Byte) (s : State) :
    busCycle (writePorts a v) s = { memWrite a v s with rdata := none } := rfl

@[simp] theorem busCycle_read (a : Byte) (s : State) :
    busCycle (readPorts a) s = { s with rdata := some (memRead a s) } := rfl

/-- Read data, draws, turns and host are no part of the register space. -/
theorem memRead_outside (a : Byte) (s : State) (r : Option Byte) (d : Nat) (ts : List Turn) (h : HostSide) :
    memRead a { s with rdata := r, draws := d, turns := ts, host := h } = memRead a s := by
  unfold memRead
  cases locate a <;> rfl

theorem codecReset_reads (a : Byte) (s : State) : memRead a (codecReset s) = 0 := by
  unfold memRead
  cases locate a <;> simp [readLoc]

/-! ## The end of a completion step -/

theorem endsOk_completeCmd {s u : State} (hs : u.status = s.status) (he : u.errcode = s.errcode) :
    EndsOk s (completeCmd u) := by
  have hb (k : Nat) : (completeCmd u).status.getLsbD k =
      if k = 0 then false else if k = 1 then true else s.status.getLsbD k := by
    rw [completeCmd_status, statusCompleted_bit, hs]
  exact ⟨⟨hb 0, hb 1, hb 2, fun k hk => by rw [hb, if_neg (by omega), if_neg (by omega)]⟩, by simpa using he⟩

theorem endsErr_raise {s u : State} (e : CmdError) (hs : u.status = s.status) :
    EndsErr e.code.toNat s (raiseCmdError e u) := by
  have hb (k : Nat) : (raiseCmdError e u).status.getLsbD k =
      if k = 0 then false else if k = 1 then true else if k = 2 then true else s.status.getLsbD k := by
    rw [raiseCmdError_status, statusCompleted_bit, statusErr_bit, hs]
  exact ⟨⟨hb 0, hb 1, hb 2, fun k hk => by rw [hb, if_neg (by omega), if_neg (by omega), if_neg (by omega)]⟩,
    by simp⟩

/-- A command that ends by `complete()` after the writes of `u`. -/
theorem completedWriting {P : Nat → Prop} {s u : State} (hs : u.status = s.status) (he : u.errcode = s.errcode)
    (hf : SameExcept P s u) (ho : OutsideSame s u) : CompletedWriting P s (completeCmd u) :=
  ⟨endsOk_completeCmd hs he,
    (hf.mono fun _ h => .inr h).trans ((completeCmd_frame u).mono fun _ h => .inl h), ho⟩

/-- A command that ends by `raise` with none of its effects. -/
theorem refusedWith_raise (e : CmdError) (s : State) : RefusedWith e.code.toNat s (raiseCmdError e s) :=
  ⟨endsErr_raise e rfl, raiseCmdError_frame e s, rfl, rfl, rfl, rfl⟩

end Sys2Proof.Machine
end

