-- ==== Sys2Proof/Laws/Codec.lean ====
section
/-! SUPPORT. The functions of the four units: each against the spec's own indexing of it (Safety.lean), and the small
laws the command proofs cite. -/

namespace Sys2Proof.Machine

/-! ## Bytes and words -/

theorem packByte_toNat (hi lo : Nibble) : (packByte hi lo).toNat = 16 * hi.toNat + lo.toNat := by
  revert hi lo; decide

theorem hiNibble_toNat (b : Byte) : (hiNibble b).toNat = b.toNat / 16 := by
  revert b; decide

theorem loNibble_toNat (b : Byte) : (loNibble b).toNat = b.toNat % 16 := by
  revert b; decide

theorem packByte_nibbles (b : Byte) : packByte (hiNibble b) (loNibble b) = b := by
  revert b; decide

theorem hiNibble_packByte (hi lo : Nibble) : hiNibble (packByte hi lo) = hi := by
  revert hi lo; decide

theorem loNibble_packByte (hi lo : Nibble) : loNibble (packByte hi lo) = lo := by
  revert hi lo; decide

theorem loByte_toNat (w : Word) : (loByte w).toNat = w.toNat % 256 := by
  simp [loByte, BitVec.extractLsb'_toNat]

theorem hiByte_toNat (w : Word) : (hiByte w).toNat = w.toNat / 256 := by
  have := w.isLt
  simp [hiByte, BitVec.extractLsb'_toNat, Nat.shiftRight_eq_div_pow]
  omega

theorem wordOf_toNat (lo hi : Byte) : (wordOf lo hi).toNat = lo.toNat + 256 * hi.toNat := by
  have hl := lo.isLt
  have hh := hi.isLt
  simp only [wordOf, BitVec.toNat_or, BitVec.toNat_shiftLeft, BitVec.truncate_eq_setWidth, BitVec.toNat_setWidth]
  rw [Nat.mod_eq_of_lt (show lo.toNat < 2 ^ 16 by omega), Nat.mod_eq_of_lt (show hi.toNat < 2 ^ 16 by omega),
    Nat.shiftLeft_eq, Nat.mod_eq_of_lt (show hi.toNat * 2 ^ 8 < 2 ^ 16 by omega), Nat.or_comm,
    show hi.toNat * 2 ^ 8 = 2 ^ 8 * hi.toNat by omega,
    ← Nat.two_pow_add_eq_or_of_lt (show lo.toNat < 2 ^ 8 by omega)]
  omega

theorem wordOf_bytes (w : Word) : wordOf (loByte w) (hiByte w) = w := by
  apply BitVec.eq_of_toNat_eq
  rw [wordOf_toNat, loByte_toNat, hiByte_toNat]
  omega

theorem loByte_wordOf (lo hi : Byte) : loByte (wordOf lo hi) = lo := by
  apply BitVec.eq_of_toNat_eq
  have := lo.isLt
  rw [loByte_toNat, wordOf_toNat]
  omega

theorem hiByte_wordOf (lo hi : Byte) : hiByte (wordOf lo hi) = hi := by
  apply BitVec.eq_of_toNat_eq
  have := lo.isLt
  rw [hiByte_toNat, wordOf_toNat]
  omega

theorem loByte_eq (w : Word) : loByte w = BitVec.ofNat 8 (w.toNat % 256) := by
  apply BitVec.eq_of_toNat_eq
  rw [loByte_toNat, BitVec.toNat_ofNat]
  omega

theorem hiByte_eq (w : Word) : hiByte w = BitVec.ofNat 8 (w.toNat / 256) := by
  apply BitVec.eq_of_toNat_eq
  have := w.isLt
  rw [hiByte_toNat, BitVec.toNat_ofNat]
  omega

/-! ## The operands -/

theorem regAt_serChar (s : State) (i : Nat) (h : i < 12) : regAt (0x10 + i) s = s.serChar[i].toNat :=
  congrArg BitVec.toNat (memRead_serChar s i h)
theorem regAt_digOut (s : State) (i : Nat) (h : i < 12) : regAt (0x20 + i) s = s.digOut[i].toNat :=
  congrArg BitVec.toNat (memRead_digOut s i h)
theorem regAt_inBuf (s : State) (i : Nat) (h : i < 64) : regAt (0x40 + i) s = s.inBuf[i].toNat :=
  congrArg BitVec.toNat (memRead_inBuf s i h)
theorem regAt_outBuf (s : State) (i : Nat) (h : i < 64) : regAt (0x80 + i) s = s.outBuf[i].toNat :=
  congrArg BitVec.toNat (memRead_outBuf s i h)
@[simp] theorem regAt_serLen (s : State) : regAt 0x04 s = s.serLen.toNat := rfl
@[simp] theorem regAt_inLen (s : State) : regAt 0x05 s = s.inLen.toNat := rfl
@[simp] theorem regAt_outLen (s : State) : regAt 0x06 s = s.outLen.toNat := rfl

/-- The input bytes of a length in the buffer are the bytes at their addresses. -/
theorem inputBytes_eq {s : State} (h : s.inLen.toNat ≤ 64) : inputBytes s = inputList s := by
  apply List.ext_getElem
  · simp [inputBytes, inputList, h]
  · intro i h1 h2
    simp only [inputList, List.length_map, List.length_range, regAt_inLen] at h2
    simp [inputBytes, inputList, memRead_inBuf s i (by omega)]

theorem inputBytes_length {s : State} (h : s.inLen.toNat ≤ 64) : (inputBytes s).length = s.inLen.toNat := by
  simp [inputBytes, h]

theorem inputList_length (s : State) : (inputList s).length = s.inLen.toNat := by simp [inputList]

theorem inputList_getD {s : State} {i : Nat} (h : i < s.inLen.toNat) :
    (inputList s).getD i 0 = memRead (addrAt 0x40 i) s := by
  simp [inputList, h]

/-! ## The serial -/

theorem serialValid_iff (s : State) : serialValid s = true ↔ SerialOk s := by
  have hl : serialValid s = true ↔ 1 ≤ s.serLen.toNat ∧ s.serLen.toNat ≤ 12 ∧ ∀ c ∈ serialChars s, isDigit c = true := by
    rw [serialValid, Bool.and_eq_true, decide_eq_true_iff, List.all_eq_true, and_assoc, serialDigits]
  rw [hl, SerialOk, regAt_serLen]
  refine and_congr_right fun _ => and_congr_right fun h2 => ⟨fun h i hi => ?_, fun h c hc => ?_⟩
  · rw [regAt_serChar s i (by omega)]
    have hm : s.serChar[i] ∈ serialChars s := by
      rw [serialChars, List.mem_iff_getElem]
      exact ⟨i, by simp; omega, by simp⟩
    simpa [isDigit] using h _ hm
  · obtain ⟨i, hi, rfl⟩ := List.mem_iff_getElem.1 hc
    simp only [serialChars, List.length_take, Vector.length_toList, lt_min_iff] at hi
    have := h i hi.1
    rw [regAt_serChar s i hi.2] at this
    simpa [isDigit, serialChars] using this

theorem serialValid_eq_false (s : State) : serialValid s = false ↔ ¬ SerialOk s := by
  rw [← serialValid_iff]; simp

theorem paddedDigits_length {s : State} (h : s.serLen.toNat ≤ 12) : (paddedDigits s).length = 12 := by
  simp [paddedDigits, serialDigits, serialChars]
  omega

theorem digitValue_toNat {c : Byte} (h : 0x30 ≤ c.toNat ∧ c.toNat ≤ 0x39) : (digitValue c).toNat = c.toNat - 0x30 := by
  simp only [digitValue, BitVec.toNat_ofNat]
  omega

theorem paddedDigits_getElem {s : State} (h : SerialOk s) (j : Nat) (hj : j < (paddedDigits s).length) :
    (paddedDigits s)[j].toNat = serialDigit s j := by
  obtain ⟨_, h12, hd⟩ := h
  rw [regAt_serLen] at h12 hd
  have hj' := paddedDigits_length h12
  simp only [paddedDigits] at hj hj' ⊢
  unfold serialDigit
  rw [regAt_serLen]
  split
  · rw [List.getElem_append_left (by simp [serialDigits]; omega)]
    simp
  · have hi := hd (j - (12 - s.serLen.toNat)) (by omega)
    rw [List.getElem_append_right (by simp [serialDigits]; omega)]
    rw [regAt_serChar s _ (by omega)] at hi ⊢
    simp only [List.getElem_map, serialChars, List.getElem_take, Vector.getElem_toList, List.length_replicate,
      serialDigits]
    exact digitValue_toNat hi

theorem serialDigit_le {s : State} (h : SerialOk s) (j : Nat) (hj : j < 12) : serialDigit s j ≤ 9 := by
  obtain ⟨h1, h12, hd⟩ := h
  unfold serialDigit
  split
  · omega
  · have := hd (j - (12 - regAt 0x04 s)) (by omega)
    omega

/-! ## The BCD unit -/

theorem packPairs_length (ds : List Nibble) : (packPairs ds).length = ds.length / 2 := by
  induction ds using packPairs.induct with
  | case1 hi lo rest ih => simp [packPairs, ih]; omega
  | case2 ds h =>
    match ds with
    | [] => rfl
    | [_] => simp [packPairs]
    | a :: b :: r => exact absurd rfl (h a b r)

theorem packPairs_getElem (ds : List Nibble) (i : Nat) (h : i < (packPairs ds).length) :
    (packPairs ds)[i] = packByte (ds[2 * i]'(by rw [packPairs_length] at h; omega))
      (ds[2 * i + 1]'(by rw [packPairs_length] at h; omega)) := by
  induction ds using packPairs.induct generalizing i with
  | case1 hi lo rest ih =>
    cases i with
    | zero => rfl
    | succ k =>
      simp only [packPairs, List.getElem_cons_succ, ih]
      rfl
  | case2 ds hds =>
    match ds with
    | [] => simp [packPairs] at h
    | [_] => simp [packPairs] at h
    | a :: b :: r => exact absurd rfl (hds a b r)

theorem packBlock_length (ds : List Nibble) : (packBlock ds).length = ds.length / 2 := by
  simp [packBlock, packPairs_length]

theorem blockDigits_length (b : List Byte) : (blockDigits b).length = 2 * b.length := by
  simp [blockDigits, List.length_flatMap]
  omega

/-- Packing in pairs inverts rendering each byte as two nibbles. -/
theorem packPairs_nibbles (b : List Byte) : packPairs (b.flatMap fun x => [hiNibble x, loNibble x]) = b := by
  induction b with
  | nil => rfl
  | cons x xs ih => simp [packPairs, packByte_nibbles, ih]

theorem packBlock_blockDigits (b : List Byte) : packBlock (blockDigits b) = b := by
  simp [packBlock, blockDigits, packPairs_nibbles]

/-- Rendering each byte as two nibbles inverts packing an even number of digits. -/
theorem nibbles_packPairs (ds : List Nibble) (h : ds.length % 2 = 0) :
    (packPairs ds).flatMap (fun x => [hiNibble x, loNibble x]) = ds := by
  induction ds using packPairs.induct with
  | case1 hi lo rest ih =>
    simp only [List.length_cons] at h
    simp [packPairs, hiNibble_packByte, loNibble_packByte, ih (by omega)]
  | case2 ds hds =>
    match ds with
    | [] => rfl
    | [_] => simp at h
    | a :: b :: r => exact absurd rfl (hds a b r)

theorem blockDigits_packBlock (ds : List Nibble) (h : ds.length % 2 = 0) : blockDigits (packBlock ds) = ds := by
  simp [packBlock, blockDigits, nibbles_packPairs ds h]

theorem bcdBlock_length {s : State} (h : SerialOk s) : (bcdBlock s).length = 6 := by
  simp [bcdBlock, packBlock_length, paddedDigits_length h.2.1]

/-- The BCD Block of a valid serial is the one its digits give (40_bcd.md R102). -/
theorem bcdBlock_eq {s : State} (h : SerialOk s) : bcdBlock s = (List.range 6).map (serialBlockByte s) := by
  apply List.ext_getElem
  · simp [bcdBlock_length h]
  · intro k h1 h2
    have hl := paddedDigits_length h.2.1
    have hk : k < 6 := by simpa using h2
    apply BitVec.eq_of_toNat_eq
    simp only [bcdBlock, packBlock, List.getElem_reverse, packPairs_getElem, packByte_toNat, paddedDigits_getElem h,
      packPairs_length, hl, List.getElem_map, List.getElem_range, serialBlockByte, BitVec.toNat_ofNat]
    have e1 := serialDigit_le h (2 * (5 - k)) (by omega)
    have e2 := serialDigit_le h (2 * (5 - k) + 1) (by omega)
    rw [show 12 / 2 - 1 - k = 5 - k by omega]
    omega

theorem digits_bcdBlock {s : State} (h : SerialOk s) : blockDigits (bcdBlock s) = paddedDigits s :=
  blockDigits_packBlock _ (by simp [paddedDigits_length h.2.1])

theorem digitsOk_iff (ds : List Nibble) : digitsOk ds = true ↔ ∀ i, (h : i < ds.length) → ds[i].toNat ≤ 9 := by
  simp only [digitsOk, List.all_eq_true, decide_eq_true_eq]
  constructor
  · intro h i hi
    exact h _ (List.getElem_mem hi)
  · intro h d hd
    obtain ⟨i, hi, rfl⟩ := List.mem_iff_getElem.1 hd
    exact h i hi

theorem digitsOk_bcdBlock {s : State} (h : SerialOk s) : digitsOk (blockDigits (bcdBlock s)) = true := by
  rw [digits_bcdBlock h, digitsOk_iff]
  intro i hi
  rw [paddedDigits_getElem h i hi]
  exact serialDigit_le h i (by rwa [paddedDigits_length h.2.1] at hi)

/-- The digits of a block: two to a byte, the last byte first (40_bcd.md R103). -/
theorem blockDigits_getElem (b : List Byte) (j : Nat) (hj : j < b.length) :
    (blockDigits b)[2 * j]'(by rw [blockDigits_length]; omega) = hiNibble b[b.length - 1 - j] ∧
    (blockDigits b)[2 * j + 1]'(by rw [blockDigits_length]; omega) = loNibble b[b.length - 1 - j] := by
  have key : ∀ (l : List Byte) (j : Nat) (h : j < l.length),
      (l.flatMap fun x => [hiNibble x, loNibble x])[2 * j]? = some (hiNibble l[j]) ∧
      (l.flatMap fun x => [hiNibble x, loNibble x])[2 * j + 1]? = some (loNibble l[j]) := by
    intro l
    induction l with
    | nil => intro j h; simp at h
    | cons x xs ih =>
      intro j h
      cases j with
      | zero => simp
      | succ k =>
        simp only [List.length_cons] at h
        simpa [Nat.mul_add] using ih k (by omega)
  obtain ⟨h0, h1⟩ := key b.reverse j (by simpa using hj)
  simp only [List.getElem_reverse] at h0 h1
  exact ⟨(List.getElem?_eq_some_iff.1 h0).2, (List.getElem?_eq_some_iff.1 h1).2⟩

end Sys2Proof.Machine
end

