-- ==== Sys2Proof/Laws/Image.lean ====
section
/-! SUPPORT. The checksum, the interleaver and the image: their algebra, and the image's layout. -/

namespace Sys2Proof.Machine

/-! ## The checksum -/

/-- Bit 15 goes to bit 0, and every other bit up by one. -/
theorem rotl16_bit (a : Word) (k : Nat) (h : k < 16) :
    (rotl16 a).getLsbD k = if k = 0 then a.getLsbD 15 else a.getLsbD (k - 1) := by
  by_cases h0 : k = 0
  · subst h0; simp [rotl16]
  · have hk : a.getLsbD (15 + k) = false := BitVec.getLsbD_of_ge a _ (by omega)
    simp only [rotl16, BitVec.getLsbD_or, BitVec.getLsbD_shiftLeft, BitVec.getLsbD_ushiftRight, hk, h0, if_false,
      Bool.or_false, h, decide_true, Bool.true_and, show ¬ k < 1 by omega, decide_false, Bool.not_false]

theorem rotl16_xor (a b : Word) : rotl16 (a ^^^ b) = rotl16 a ^^^ rotl16 b := by
  apply BitVec.eq_of_getLsbD_eq
  intro k hk
  simp only [rotl16_bit _ k hk, BitVec.getLsbD_xor]
  split <;> rfl

theorem rotl16_injective : Function.Injective rotl16 := by
  intro a b h
  apply BitVec.eq_of_getLsbD_eq
  intro k hk
  have hb (j : Nat) (hj : j < 16) := congrArg (fun w : Word => w.getLsbD j) h
  by_cases h15 : k = 15
  · subst h15
    have := hb 0 (by omega)
    simp only [rotl16_bit _ 0 (by omega), if_true] at this
    exact this
  · have := hb (k + 1) (by omega)
    simpa [rotl16_bit _ (k + 1) (by omega)] using this

theorem rotl16_ones : rotl16 0xFFFF = 0xFFFF := by decide

/-- The checksum of whole words is the fold of the rounds. -/
theorem checksumFrom_wordBytes (ws : List Word) (a : Word) :
    checksumFrom a (wordBytes ws) = ws.foldl checksumRound a := by
  induction ws generalizing a with
  | nil => rfl
  | cons w ws ih =>
    have hw : wordOf (BitVec.ofNat 8 (w.toNat % 256)) (BitVec.ofNat 8 (w.toNat / 256)) = w := by
      rw [← loByte_eq, ← hiByte_eq, wordOf_bytes]
    simp only [wordBytes, List.flatMap_cons, List.cons_append, List.nil_append, checksumFrom, List.foldl_cons, hw]
    exact ih _

theorem checksum_wordBytes (ws : List Word) : checksum (wordBytes ws) = ws.foldl checksumRound 0xFFFF :=
  checksumFrom_wordBytes ws _

/-! ## The interleaver -/

theorem interleave_length (x : List Byte) : (interleave x).length = 2 * x.length := by
  induction x with
  | nil => rfl
  | cons b r ih => simp [interleave, ih]; omega

theorem interleave_append (x y : List Byte) : interleave (x ++ y) = interleave x ++ interleave y := by
  induction x with
  | nil => rfl
  | cons b r ih => simp [interleave, ih]

theorem deinterleave_interleave (x : List Byte) : deinterleave (interleave x) = x := by
  induction x with
  | nil => rfl
  | cons b r ih => simp [interleave, deinterleave, ih]

theorem interleave_getD (x : List Byte) (i : Nat) :
    (interleave x).getD (2 * i) 0 = x.getD i 0 ∧ (interleave x).getD (2 * i + 1) 0 = 0 := by
  induction x generalizing i with
  | nil => simp [interleave]
  | cons b r ih =>
    cases i with
    | zero => simp [interleave, fillByte]
    | succ k => simpa [interleave, Nat.mul_add] using ih k

theorem deinterleave_length (x : List Byte) : (deinterleave x).length = (x.length + 1) / 2 := by
  induction x using deinterleave.induct with
  | case1 => rfl
  | case2 b => simp [deinterleave]
  | case3 b c r ih => simp [deinterleave, ih]; omega

theorem deinterleave_getD (x : List Byte) (i : Nat) : (deinterleave x).getD i 0 = x.getD (2 * i) 0 := by
  induction x using deinterleave.induct generalizing i with
  | case1 => simp [deinterleave]
  | case2 b => cases i <;> simp [deinterleave, Nat.mul_add]
  | case3 b c r ih =>
    cases i with
    | zero => simp [deinterleave]
    | succ k => simpa [deinterleave, Nat.mul_add] using ih k

/-- Mode detection is by the odd-indexed bytes (43_rom_image.md R180). -/
theorem isInterleaved_iff (x : List Byte) :
    isInterleaved x = true ↔ ∀ i, i < x.length → i % 2 = 1 → x.getD i 0 = 0 := by
  induction x using isInterleaved.induct with
  | case1 b c r ih =>
    simp only [isInterleaved, Bool.and_eq_true, beq_iff_eq, ih]
    constructor
    · rintro ⟨rfl, h⟩ i hi h1
      match i, h1 with
      | 1, _ => rfl
      | k + 2, h1 =>
        simp only [List.length_cons] at hi
        simpa using h k (by omega) (by omega)
    · intro h
      refine ⟨by simpa using h 1 (by simp) rfl, fun i hi h1 => ?_⟩
      simpa using h (i + 2) (by simp; omega) (by omega)
  | case2 x hx =>
    match x with
    | [] => simp [isInterleaved]
    | [b] =>
      simp only [isInterleaved, true_iff]
      intro i hi h1
      simp only [List.length_singleton] at hi
      omega
    | a :: b :: r => exact absurd rfl (hx a b r)

theorem isInterleaved_interleave (x : List Byte) : isInterleaved (interleave x) = true := by
  induction x with
  | nil => rfl
  | cons b r ih => simpa [interleave, isInterleaved, fillByte] using ih

/-- What is deinterleaved and then interleaved again is as before exactly when it was interleaved and even. -/
theorem interleave_deinterleave (y : List Byte) (he : y.length % 2 = 0) (h : isInterleaved y = true) :
    interleave (deinterleave y) = y := by
  induction y using deinterleave.induct with
  | case1 => rfl
  | case2 b => simp at he
  | case3 b c r ih =>
    simp only [isInterleaved, Bool.and_eq_true, beq_iff_eq] at h
    simp only [List.length_cons] at he
    simp [deinterleave, interleave, fillByte, h.1, ih (by omega) h.2]

/-! ## The image -/

theorem footer_length : footer.length = 8 := rfl

theorem expectedFooter_length (il : Bool) : (expectedFooter il).length = if il then 16 else 8 := by
  cases il <;> rfl

theorem plainImage_length (blk : List Byte) : (plainImage blk).length = 3 * (blk.length + 2) + 8 := by
  simp [plainImage, rep3, checksumBytes, footer]
  omega

/-- The interleaved image is the plain image interleaved (43_rom_image.md R174). -/
theorem interleavedImage_eq (blk : List Byte) : interleavedImage blk = interleave (plainImage blk) := by
  simp [interleavedImage, plainImage, rep3, interleave_append]

/-- A list of six bytes, written out. -/
theorem six_bytes {blk : List Byte} (h : blk.length = 6) :
    ∃ b0 b1 b2 b3 b4 b5, blk = [b0, b1, b2, b3, b4, b5] := by
  match blk, h with
  | [b0, b1, b2, b3, b4, b5], _ => exact ⟨b0, b1, b2, b3, b4, b5, rfl⟩

theorem isInterleaved_plainImage {blk : List Byte} (h : blk.length = 6) : isInterleaved (plainImage blk) = false := by
  obtain ⟨b0, b1, b2, b3, b4, b5, rfl⟩ := six_bytes h
  simp [plainImage, rep3, checksumBytes, footer, isInterleaved]

/-- The parts of an image, by data bytes: with the fill taken out, an image of mode `il` and of the length of its mode
is a list of 32 data bytes, of which DECODE reads the first eight and the last eight. -/
theorem image_parts (il : Bool) (img : List Byte) (h : img.length = imageBytes il) :
    imageChunk il img = (unfill il img).take 8 ∧ unfill il (imageFooter il img) = (unfill il img).drop 24 ∧
      (unfill il img).length = 32 := by
  have hdrop (x : List Byte) (k : Nat) : deinterleave (x.drop (2 * k)) = (deinterleave x).drop k := by
    induction k generalizing x with
    | zero => rfl
    | succ n ih => match x with
      | [] => simp [deinterleave]
      | [b] => simp [deinterleave, Nat.mul_add]
      | b :: c :: r => simpa [deinterleave, Nat.mul_add] using ih r
  have htake (x : List Byte) (k : Nat) : deinterleave (x.take (2 * k)) = (deinterleave x).take k := by
    induction k generalizing x with
    | zero => rfl
    | succ n ih => match x with
      | [] => simp [deinterleave]
      | [b] => simp [deinterleave, Nat.mul_add]
      | b :: c :: r => simpa [deinterleave, Nat.mul_add] using ih r
  cases il with
  | false =>
    have h : img.length = 32 := h
    simp [imageChunk, imageBody, imageFooter, unfill, expectedFooter_length, h, List.take_take]
  | true =>
    have h : img.length = 64 := h
    have h8 := htake img 8
    have h24 := hdrop img 24
    simp only [Nat.reduceMul] at h8 h24
    simp [imageChunk, imageBody, imageFooter, unfill, expectedFooter_length, deinterleave_length, h, List.take_take, h8,
      h24]

/-- The footer comparison of an interleaved image needs only its data bytes. -/
theorem footer_matches_iff (il : Bool) (img : List Byte) (h : img.length = imageBytes il)
    (hil : isInterleaved img = il) :
    imageFooter il img = expectedFooter il ↔ (unfill il img).drop 24 = footer := by
  rw [← (image_parts il img h).2.1]
  cases il with
  | false => rfl
  | true =>
    have h : img.length = 64 := h
    have hodd : isInterleaved (imageFooter true img) = true := by
      rw [isInterleaved_iff] at hil ⊢
      intro i hi h1
      simp only [imageFooter, expectedFooter_length, if_true, h, List.length_drop] at hi ⊢
      have := hil (48 + i) (by omega) (by omega)
      simpa [List.getD_eq_getElem?_getD] using this
    constructor
    · intro he
      rw [he]; rfl
    · intro he
      rw [← interleave_deinterleave (imageFooter true img) ?_ hodd]
      · exact congrArg interleave he
      · simp [imageFooter, expectedFooter_length, h]

/-- The report DECODE makes of an image whose data bytes are `d` (43_rom_image.md R183, R184): it reads the first eight
and the last eight of them. -/
def reportOf (il : Bool) (d : List Byte) (s : State) : State :=
  setFooterOut (d.drop 24) (setDigits (blockDigits (d.take 6)) (setStored (wordOf (d.getD 6 0) (d.getD 7 0))
    (setCsum (checksum (d.take 6)) (setResult (resultDecode il
      (checksum (d.take 6) == wordOf (d.getD 6 0) (d.getD 7 0)) (d.drop 24 == footer)
      (digitsOk (blockDigits (d.take 6)))) s))))

theorem decodeReport_eq (il : Bool) (img : List Byte) (s : State) (h : img.length = imageBytes il)
    (hil : isInterleaved img = il) : decodeReport il img s = reportOf il (unfill il img) s := by
  obtain ⟨hc, hf, hl⟩ := image_parts il img h
  have hb : imageBlock il img = (unfill il img).take 6 := by
    rw [imageBlock, hc, bcdBytes, List.take_take]
    rfl
  have hs : imageStored il img = wordOf ((unfill il img).getD 6 0) ((unfill il img).getD 7 0) := by
    rw [imageStored, hc]
    simp [List.getD_eq_getElem?_getD]
  have hm : (imageFooter il img == expectedFooter il) = ((unfill il img).drop 24 == footer) := by
    rw [Bool.eq_iff_iff, beq_iff_eq, beq_iff_eq]
    exact footer_matches_iff il img h hil
  simp only [decodeReport, reportOf, hb, hs, hm, hf]

end Sys2Proof.Machine
end

