-- ==== Sys2Proof/Laws/Machine.lean ====
section
/-! SUPPORT. The machine: what a completion step, a host step and a step can do, once, and the host's variables. -/

namespace Sys2Proof.Machine

/-! ## Commands -/

/-- Two states agree on what no completion step's own writes touch. -/
def KeepsAllButResults (s u : State) : Prop :=
  u.status = s.status ∧ u.errcode = s.errcode ∧ u.cmd = s.cmd ∧ u.serLen = s.serLen ∧ u.inLen = s.inLen ∧
    u.serChar = s.serChar ∧ u.inBuf = s.inBuf ∧ OutsideSame s u

/-- DECODE's three ends. -/
theorem execDecode_cases (s : State) :
    (64 < s.inLen.toNat ∧ exec .decode s = .next (raiseCmdError .length s)) ∨
    (s.inLen.toNat ≤ 64 ∧ s.inLen.toNat ≠ imageBytes (isInterleaved (inputBytes s)) ∧
      exec .decode s = .next (raiseCmdError .format (decodeFormat (isInterleaved (inputBytes s)) s))) ∨
    (s.inLen.toNat ≤ 64 ∧ s.inLen.toNat = imageBytes (isInterleaved (inputBytes s)) ∧
      exec .decode s = .next (completeCmd (decodeReport (isInterleaved (inputBytes s)) (inputBytes s) s))) := by
  by_cases h : s.inLen.toNat > bufBytes
  · exact .inl ⟨h, if_pos h⟩
  · have hn : exec .decode s = _ := if_neg h
    have hle : s.inLen.toNat ≤ 64 := not_lt.1 h
    rw [← inputBytes_length hle]
    by_cases hl : (inputBytes s).length ≠ imageBytes (isInterleaved (inputBytes s))
    · exact .inr (.inl ⟨by rwa [inputBytes_length hle], hl, hn.trans (if_pos hl)⟩)
    · exact .inr (.inr ⟨by rwa [inputBytes_length hle], not_not.1 hl, hn.trans (if_neg hl)⟩)

/-- EVERY COMMAND, IN ONE LEMMA: it completes or raises, after writes `u` that touch result registers only; and the
raises are BCDPACK's and ENCODE's VALIDATION, LENGTH, and DECODE's FORMAT, the last alone after writes. -/
theorem exec_cases (i : Instr) (s : State) :
    ∃ u, KeepsAllButResults s u ∧
      (exec i s = .next (completeCmd u) ∨
        (u = s ∧ (exec i s = .next (raiseCmdError .validation u) ∨ exec i s = .next (raiseCmdError .length u))) ∨
        (i = .decode ∧ u = decodeFormat (isInterleaved (inputBytes s)) s ∧
          exec i s = .next (raiseCmdError .format u))) := by
  have hs : KeepsAllButResults s s := by simp [KeepsAllButResults, OutsideSame]
  cases i with
  | validate =>
    exact ⟨setResult (resultValidate (serialValid s)) s,
        by simp [KeepsAllButResults, OutsideSame], .inl rfl⟩
  | bcdpack =>
    simp only [exec, execBcdpack]
    split
    · exact ⟨setOut (bcdBlock s) s,
        by simp [KeepsAllButResults, OutsideSame], .inl rfl⟩
    · exact ⟨s, hs, .inr (.inl ⟨rfl, .inl rfl⟩)⟩
  | bcdunpack =>
    simp only [exec, execBcdunpack]
    split
    · exact ⟨s, hs, .inr (.inl ⟨rfl, .inr rfl⟩)⟩
    · exact ⟨setResult (resultUnpack (digitsOk (blockDigits (inputBytes s)))) (setDigits (blockDigits (inputBytes s)) s),
        by simp [KeepsAllButResults, OutsideSame], .inl rfl⟩
  | csum =>
    simp only [exec, execCsum]
    split
    · exact ⟨s, hs, .inr (.inl ⟨rfl, .inr rfl⟩)⟩
    · exact ⟨setCsum (checksum (inputBytes s)) s,
        by simp [KeepsAllButResults, OutsideSame], .inl rfl⟩
  | ilv =>
    simp only [exec, execIlv]
    split
    · exact ⟨s, hs, .inr (.inl ⟨rfl, .inr rfl⟩)⟩
    · exact ⟨setOut (interleave (inputBytes s)) s,
        by simp [KeepsAllButResults, OutsideSame], .inl rfl⟩
  | dilv =>
    simp only [exec, execDilv]
    split
    · exact ⟨s, hs, .inr (.inl ⟨rfl, .inr rfl⟩)⟩
    · exact ⟨setOut (deinterleave (inputBytes s)) s,
        by simp [KeepsAllButResults, OutsideSame], .inl rfl⟩
  | encodePlain =>
    simp only [exec, execEncodePlain, encodeWith]
    split
    · exact ⟨setCsum (checksum (bcdBlock s)) (setOut (plainImage (bcdBlock s)) s),
        by simp [KeepsAllButResults, OutsideSame], .inl rfl⟩
    · exact ⟨s, hs, .inr (.inl ⟨rfl, .inl rfl⟩)⟩
  | encodeEmu =>
    simp only [exec, execEncodeEmu, encodeWith]
    split
    · exact ⟨setCsum (checksum (bcdBlock s)) (setOut (interleavedImage (bcdBlock s)) s),
        by simp [KeepsAllButResults, OutsideSame], .inl rfl⟩
    · exact ⟨s, hs, .inr (.inl ⟨rfl, .inl rfl⟩)⟩
  | decode =>
    rcases execDecode_cases s with ⟨_, h⟩ | ⟨_, _, h⟩ | ⟨_, _, h⟩
    · exact ⟨s, hs, .inr (.inl ⟨rfl, .inr h⟩)⟩
    · exact ⟨decodeFormat (isInterleaved (inputBytes s)) s,
        by simp [KeepsAllButResults, OutsideSame, decodeFormat], .inr (.inr ⟨rfl, rfl, h⟩)⟩
    · exact ⟨decodeReport (isInterleaved (inputBytes s)) (inputBytes s) s,
        by simp [KeepsAllButResults, OutsideSame, decodeReport], .inl h⟩

/-! ## The registers a command writes -/

/-- DECODE's five writes touch its report registers only. -/
theorem reportWrites_frame (r : Byte) (c st : Word) (d : List Nibble) (f : List Byte) (s : State) :
    SameExcept ReportRegs s (setFooterOut f (setDigits d (setStored st (setCsum c (setResult r s))))) := by
  have h1 := (setResult_frame r s).mono (Q := ReportRegs) fun _ h => .inl h
  have h2 := (setCsum_frame c (setResult r s)).mono (Q := ReportRegs) fun _ h => .inr (.inl h)
  have h3 := (setStored_frame st (setCsum c (setResult r s))).mono (Q := ReportRegs) fun _ h => by
    unfold ReportRegs; tauto
  have h4 := (setDigits_frame d (setStored st (setCsum c (setResult r s)))).mono (Q := ReportRegs) fun _ h => by
    unfold ReportRegs; tauto
  have h5 := (setFooterOut_frame f (setDigits d (setStored st (setCsum c (setResult r s))))).mono (Q := ReportRegs)
    fun _ h => by unfold ReportRegs; tauto
  exact (((h1.trans h2).trans h3).trans h4).trans h5

theorem decodeFormat_frame (il : Bool) (s : State) : SameExcept ReportRegs s (decodeFormat il s) :=
  reportWrites_frame _ _ _ _ _ s

theorem decodeReport_frame (il : Bool) (img : List Byte) (s : State) :
    SameExcept ReportRegs s (decodeReport il img s) :=
  reportWrites_frame _ _ _ _ _ s

/-! ## The host's variables -/

theorem hostVar_setHostVar (x : HostVar) (v : Nat) (vars : List (HostVar × Nat)) (y : HostVar) :
    hostVar (setHostVar x v vars) y = if y = x then v else hostVar vars y := by
  have hn : (x = y) = (y = x) := propext eq_comm
  induction vars with
  | nil => simp [setHostVar, hostVar, hn]
  | cons zw rest ih =>
    obtain ⟨z, w⟩ := zw
    unfold setHostVar
    split
    · simp [hostVar, hn]
    · split
      · rename_i h
        subst h
        by_cases hy : y = x <;> simp [hostVar, hn, hy]
      · rename_i h
        by_cases hz : z = y
        · subst hz; simp [hostVar, Ne.symm h]
        · simp [hostVar, hz, ih]

/-- Assignment keeps the variables in rising order, each once. -/
theorem setHostVar_pairwise (x : HostVar) (v : Nat) (vars : List (HostVar × Nat))
    (h : vars.Pairwise fun a b => a.1 < b.1) : (setHostVar x v vars).Pairwise fun a b => a.1 < b.1 := by
  induction vars with
  | nil => simp [setHostVar]
  | cons zw rest ih =>
    obtain ⟨z, w⟩ := zw
    rw [List.pairwise_cons] at h
    unfold setHostVar
    split
    · rename_i hx
      refine List.pairwise_cons.2 ⟨fun b hb => ?_, List.pairwise_cons.2 h⟩
      rcases List.mem_cons.1 hb with rfl | hb
      · exact hx
      · exact hx.trans (h.1 b hb)
    · split
      · rename_i hx
        subst hx
        exact List.pairwise_cons.2 h
      · rename_i h1 h2
        refine List.pairwise_cons.2 ⟨fun b hb => ?_, ih h.2⟩
        have hmem : ∀ l : List (HostVar × Nat), b ∈ setHostVar x v l → b = (x, v) ∨ b ∈ l := by
          intro l
          induction l with
          | nil => simp [setHostVar]
          | cons p q ih' =>
            unfold setHostVar
            split
            · simp
            · split
              · simp only [List.mem_cons]; tauto
              · simp only [List.mem_cons]; tauto
        rcases hmem rest hb with rfl | hb
        · exact lt_of_le_of_ne (not_lt.1 h1) (Ne.symm h2)
        · exact h.1 b hb

/-! ## Host steps and steps -/

/-- Everything a host step does: a bus cycle without reset or none, then a move of the host; or it stops. -/
theorem hostStep_cases (s : State) :
    (∃ t h, hostStep s = .next { t with host := h } ∧
      (t = s ∨ ∃ p : Ports, p.rst = false ∧ t = busCycle p s) ∧
      (h.vars = s.host.vars ∨ ∃ x v, h.vars = setHostVar x v s.host.vars)) ∨
    ∃ f, hostStep s = .fault f := by
  have hgoto (l : Label) : (∃ k, hostGoto l s = .next (hostAt k s)) ∨ hostGoto l s = .fault .hostLabel := by
    unfold hostGoto
    split
    · exact .inl ⟨_, rfl⟩
    · exact .inr rfl
  have hmove (k : Nat) (o : Outcome) (ho : o = .next (hostAt k s)) :
      (∃ t h, o = .next { t with host := h } ∧ (t = s ∨ ∃ p : Ports, p.rst = false ∧ t = busCycle p s) ∧
        (h.vars = s.host.vars ∨ ∃ x v, h.vars = setHostVar x v s.host.vars)) ∨ ∃ f, o = .fault f :=
    .inl ⟨s, { s.host with pos := k }, ho, .inl rfl, .inl rfl⟩
  unfold hostStep
  split
  · rename_i st _
    cases st with
    | wr a v =>
      simp only [hostExec, hostWr]
      split
      · rename_i a' v' _ _
        have hh : (busCycle (writePorts a' v') s).host = s.host := (memWrite_outside a' v' s).2.2.1
        exact .inl ⟨busCycle (writePorts a' v') s, { s.host with pos := s.host.pos + 1 },
          by simp only [hostNext, hostAt, hh], .inr ⟨writePorts a' v', rfl, rfl⟩, .inl rfl⟩
      · exact .inr ⟨_, rfl⟩
    | rd a x =>
      simp only [hostExec, hostRd]
      split
      · rename_i b _
        exact .inl ⟨busCycle (readPorts b) s, _, rfl, .inr ⟨readPorts b, rfl, rfl⟩, .inr ⟨x, _, rfl⟩⟩
      · exact .inr ⟨_, rfl⟩
    | label l => exact hmove _ _ rfl
    | assign x e =>
      exact .inl ⟨s, (hostNext (hostAssign x (evalExpr s.host.vars e) s)).host, rfl, .inl rfl, .inr ⟨x, _, rfl⟩⟩
    | ifGoto c l =>
      simp only [hostExec]
      split
      · rcases hgoto l with ⟨k, h⟩ | h
        · exact hmove k _ h
        · exact .inr ⟨_, h⟩
      · exact hmove _ _ rfl
    | goto l =>
      rcases hgoto l with ⟨k, h⟩ | h
      · exact hmove k _ h
      · exact .inr ⟨_, h⟩
    | halt => exact hmove _ _ rfl
  · exact .inl ⟨s, s.host, rfl, .inl rfl, .inl rfl⟩

/-- Everything a completion step does. -/
theorem engineStep_cases (s : State) :
    (s.busy = false ∧ engineStep s = .next s) ∨
    (s.busy = true ∧ ∃ i, decodeByte s.cmd = .ok i ∧ engineStep s = exec i s) ∨
    (s.busy = true ∧ (∃ e, decodeByte s.cmd = .error e) ∧ engineStep s = .next (raiseCmdError .illegalCmd s)) := by
  unfold engineStep
  cases hb : s.busy with
  | false => exact .inl ⟨rfl, by simp⟩
  | true =>
    cases hd : decodeByte s.cmd with
    | ok i => exact .inr (.inl ⟨rfl, i, rfl, by simp⟩)
    | error e => exact .inr (.inr ⟨rfl, ⟨e, rfl⟩, by simp⟩)

/-- EVERY STEP, IN ONE LEMMA: with one turn taken, a completion step, a host step or a bus cycle. -/
theorem step_cases (s : State) :
    ∃ rest, step s = engineStep { s with turns := rest } ∨ step s = hostStep { s with turns := rest } ∨
      ∃ p, Turn.cycle p ∈ s.turns ∧ step s = .next (busCycle p { s with turns := rest }) := by
  unfold step
  split
  · rename_i h
    have hs : { s with turns := [] } = s := by rw [← h]
    refine ⟨[], ?_⟩
    rw [hs]
    split
    · exact .inl rfl
    · exact .inr (.inl rfl)
  · exact ⟨_, .inl rfl⟩
  · exact ⟨_, .inr (.inl rfl)⟩
  · rename_i p rest h
    exact ⟨_, .inr (.inr ⟨p, by simp [h], rfl⟩)⟩

/-- With nothing scheduled and no command in flight, the host moves. -/
theorem step_host {s : State} (ht : s.turns = []) (hb : s.busy = false) : step s = hostStep s := by
  simp [step, ht, hb]

end Sys2Proof.Machine
end

