-- ==== Sys2Proof/Laws/PerInstr.lean ====
section
/-! SUPPORT. What is said of every command as syntax: its fields are well formed, its byte carries exactly these fields,
and its byte decodes to it. -/

namespace Sys2Proof.Laws.Encoding

/-- A command is well formed (30_encoding.md R80), its byte has its fields, and decodes to it (R82, R85). -/
def Statement (i : Instr) : Prop :=
  i.wf = true ∧ cmdFields (encode i) = i.fields ∧ decodeByte (encode i) = .ok i

theorem validate : Statement .validate := by unfold Statement; decide

theorem bcdpack : Statement .bcdpack := by unfold Statement; decide

theorem bcdunpack : Statement .bcdunpack := by unfold Statement; decide

theorem csum : Statement .csum := by unfold Statement; decide

theorem ilv : Statement .ilv := by unfold Statement; decide

theorem dilv : Statement .dilv := by unfold Statement; decide

theorem encodePlain : Statement .encodePlain := by unfold Statement; decide

theorem encodeEmu : Statement .encodeEmu := by unfold Statement; decide

theorem decode : Statement .decode := by unfold Statement; decide

end Sys2Proof.Laws.Encoding
end

