-- ==== Sys2Proof/Tests/Slice0.lean ====
section
/-! SUPPORT. The model's own tests. Every expected value is the spec's (95_test_vectors.md, named at each test) or
worked out by hand from the rule cited; and for every obligation with hypotheses, witnesses that meet them. -/

namespace Sys2Proof.Tests

open Sys2Proof Sys2Proof.Machine

/-! ## Small states -/

/-- The reset state with SER_LEN and SER_CHAR as given. -/
def serialState (n : Nat) (chars : List Byte) : State :=
  { State.reset with serLen := BitVec.ofNat 8 n, serChar := fillBytes 12 chars }

/-- The reset state with the input bytes given, and IN_LEN their number. -/
def inputState (bytes : List Byte) : State :=
  { State.reset with inLen := BitVec.ofNat 8 bytes.length, inBuf := fillBytes 64 bytes }

/-- The byte at address `a` after command `i` is accepted and completed. -/
def after (i : Instr) (s : State) (a : Nat) : Option Nat :=
  match exec i (acceptCommand (encode i) s) with
  | .next t => some (regAt a t)
  | _ => none

/-- The bytes at `base` to `base + n - 1` after command `i` is accepted and completed. -/
def bytesAfter (i : Instr) (s : State) (base n : Nat) : List Nat :=
  match exec i (acceptCommand (encode i) s) with
  | .next t => (List.range n).map fun k => regAt (base + k) t
  | _ => []

/-- Serial "5". -/
def five : State := serialState 1 [0x35]

/-- Serial "1a3". -/
def notDigits : State := serialState 3 [0x31, 0x61, 0x33]

/-- The plain image of serial "123456789012" (95 S5). -/
def s5Image : List Byte :=
  [0x12, 0x90, 0x78, 0x56, 0x34, 0x12, 0xE2, 0x02, 0x12, 0x90, 0x78, 0x56, 0x34, 0x12, 0xE2, 0x02,
   0x12, 0x90, 0x78, 0x56, 0x34, 0x12, 0xE2, 0x02, 0x00, 0xFF, 0x55, 0xAA, 0xFF, 0x00, 0xAF, 0x50]

/-- A busy state: `c` has just been accepted. -/
def busyState (c : Byte) : State := acceptCommand c State.reset

/-! ## Well-formedness: a smoke test with an ill-formed term for each check -/

theorem test_wf_reserved_bits : CmdFields.rsvOk ⟨false, 0b001, 1⟩ = false ∧
    CmdFields.wf ⟨false, 0b100, 1⟩ = false := by decide

theorem test_wf_opcode : CmdFields.opOk ⟨false, 0, 0⟩ = false ∧ CmdFields.opOk ⟨false, 0, 9⟩ = false ∧
    CmdFields.wf ⟨false, 0, 15⟩ = false := by decide

theorem test_wf_emu : CmdFields.emuOk ⟨true, 0, 8⟩ = false ∧ CmdFields.wf ⟨true, 0, 1⟩ = false := by decide

theorem test_wf_legal : CmdFields.wf ⟨true, 0, 7⟩ = true ∧ CmdFields.wf ⟨false, 0, 8⟩ = true := by decide

theorem test_wf_wrser : (HostSrc.wrser (List.replicate 13 0)).wf = false ∧
    (HostSrc.wrser (List.replicate 12 0)).wf = true := by decide

theorem test_wf_wrin : (HostSrc.wrin (List.replicate 65 0)).wf = false ∧
    (HostSrc.wrin (List.replicate 64 0)).wf = true := by decide

theorem test_wf_jumps : HostStmt.jumpsWf [.goto (.named 1)] = false ∧
    HostStmt.jumpsWf [.label (.named 1), .label (.named 1)] = false ∧
    HostStmt.jumpsWf [.ifGoto (.eq (.num 0) (.num 0)) (.named 1), .label (.named 1)] = true := by decide

/-! ## Decoding: words written out from 30_encoding.md R85 -/

theorem test_decode_validate : decodeByte 0b00000001 = .ok .validate := by decide

theorem test_decode_bcdpack : decodeByte 0b00000010 = .ok .bcdpack := by decide

theorem test_decode_bcdunpack : decodeByte 0b00000011 = .ok .bcdunpack := by decide

theorem test_decode_csum : decodeByte 0b00000100 = .ok .csum := by decide

theorem test_decode_ilv : decodeByte 0b00000101 = .ok .ilv := by decide

theorem test_decode_dilv : decodeByte 0b00000110 = .ok .dilv := by decide

theorem test_decode_encodePlain : decodeByte 0b00000111 = .ok .encodePlain := by decide

theorem test_decode_encodeEmu : decodeByte 0b10000111 = .ok .encodeEmu := by decide

theorem test_decode_decode : decodeByte 0b00001000 = .ok .decode := by decide

/-- R82's three checks, in its order (95 V91 to V98). -/
theorem test_decode_rejects :
    decodeByte 0x00 = .error .badOpcode ∧ decodeByte 0x09 = .error .badOpcode ∧ decodeByte 0x0F = .error .badOpcode ∧
    decodeByte 0x80 = .error .badOpcode ∧ decodeByte 0x17 = .error .reservedBits ∧
    decodeByte 0x40 = .error .reservedBits ∧ decodeByte 0xF7 = .error .reservedBits ∧
    decodeByte 0x81 = .error .emuWithoutEncode ∧ decodeByte 0x88 = .error .emuWithoutEncode := by decide

/-- The rows of the opcode table, and words that are no row. -/
theorem test_decodeTableWord :
    [0x01, 0x02, 0x03, 0x04, 0x05, 0x06, 0x07, 0x87, 0x08].map (decodeTableWord 8) =
      [some .validate, some .bcdpack, some .bcdunpack, some .csum, some .ilv, some .dilv, some .encodePlain,
        some .encodeEmu, some .decode] ∧
    decodeTableWord 8 0x00 = none ∧ decodeTableWord 8 0x47 = none ∧ decodeTableWord 16 0x01 = none := by decide

/-- Every command is one byte long (R86): the rest of the bytes is left. -/
theorem test_decodeBytes : decodeBytes [0x87, 0x01] = .ok (.encodeEmu, [0x01]) ∧ decodeBytes [] = .error .noByte := by
  decide

/-! ## The commands -/

/-- 95 V2. -/
theorem test_validate_shortest : after .validate five 0x03 = some 0x20 := by decide

/-- 95 V8: 0x3A is just above '9'. -/
theorem test_validate_above_nine : after .validate (serialState 1 [0x3A]) 0x03 = some 0x00 := by decide

/-- 95 V19: serial "1234567". -/
theorem test_bcdpack : bytesAfter .bcdpack (serialState 7 [0x31, 0x32, 0x33, 0x34, 0x35, 0x36, 0x37]) 0x80 6 =
    [0x67, 0x45, 0x23, 0x01, 0x00, 0x00] := by decide

/-- 95 V23: VALIDATION. -/
theorem test_bcdpack_invalid : after .bcdpack notDigits 0x02 = some 2 := by decide

/-- 95 V30. -/
theorem test_bcdunpack : bytesAfter .bcdunpack (inputState [0x12, 0x90, 0x78, 0x56, 0x34, 0x12]) 0x20 12 =
    [1, 2, 3, 4, 5, 6, 7, 8, 9, 0, 1, 2] := by decide

/-- 95 V32: nibbles 15 and 10 give BCD_OK = 0. -/
theorem test_bcdunpack_not_decimal : after .bcdunpack (inputState [0xFA, 0, 0, 0, 0, 0]) 0x03 = some 0x00 ∧
    after .bcdunpack (inputState [0xFA, 0, 0, 0, 0, 0]) 0x2A = some 15 := by decide

/-- 95 V25 (41_checksum.md R132): the words reversed. -/
theorem test_csum : bytesAfter .csum (inputState [0x02, 0x00, 0x01, 0x00]) 0x08 2 = [0xF5, 0xFF] := by decide

/-- 41_checksum.md R131: bit 15 after the XOR wraps to bit 0. -/
theorem test_csum_wraps : bytesAfter .csum (inputState [0x00, 0x80]) 0x08 2 = [0xFE, 0xFF] := by decide

/-- 42_interleave.md R152's example. -/
theorem test_ilv : bytesAfter .ilv (inputState [0xAB, 0xCD]) 0x80 5 = [0xAB, 0x00, 0xCD, 0x00, 0x00] := by decide

/-- 42_interleave.md R152: 33 bytes give LENGTH. -/
theorem test_ilv_length : after .ilv (inputState (List.replicate 33 1)) 0x02 = some 3 := by decide

/-- 42_interleave.md R153: an odd length keeps the last byte. -/
theorem test_dilv_odd : bytesAfter .dilv (inputState [0x01, 0x02, 0x03]) 0x80 3 = [0x01, 0x03, 0x00] ∧
    after .dilv (inputState [0x01, 0x02, 0x03]) 0x06 = some 2 := by decide

/-- 42_interleave.md R153's example. -/
theorem test_dilv : bytesAfter .dilv (inputState [0x12, 0x00, 0x90, 0x00]) 0x80 2 = [0x12, 0x90] := by decide

/-- 43_rom_image.md R173's example: serial "5", plain. -/
theorem test_encodePlain : bytesAfter .encodePlain five 0x80 32 =
    [0x05, 0, 0, 0, 0, 0, 0xD7, 0xFF, 0x05, 0, 0, 0, 0, 0, 0xD7, 0xFF, 0x05, 0, 0, 0, 0, 0, 0xD7, 0xFF,
      0x00, 0xFF, 0x55, 0xAA, 0xFF, 0x00, 0xAF, 0x50] ∧ after .encodePlain five 0x06 = some 32 := by decide

/-- 43_rom_image.md R171, R172: the first Sequence and the Footer of the interleaved image of "5". -/
theorem test_encodeEmu :
    bytesAfter .encodeEmu five 0x80 16 = [0x05, 0, 0, 0, 0, 0, 0, 0, 0, 0, 0, 0, 0xD7, 0, 0xFF, 0] ∧
    bytesAfter .encodeEmu five 0xB0 16 = [0, 0, 0xFF, 0, 0x55, 0, 0xAA, 0, 0xFF, 0, 0, 0, 0xAF, 0, 0x50, 0] ∧
    after .encodeEmu five 0x06 = some 64 := by decide

/-- 95 S7: one bit of the stored checksum flipped. -/
theorem test_decode_tampered : after .decode (inputState (s5Image.set 6 0xE3)) 0x03 = some 0x14 ∧
    bytesAfter .decode (inputState (s5Image.set 6 0xE3)) 0x08 4 = [0xE2, 0x02, 0xE3, 0x02] := by decide

/-- 95 S9: 64 zero bytes; and 32 of them, which give FORMAT. -/
theorem test_decode_zeros : after .decode (inputState (List.replicate 64 0)) 0x03 = some 0x11 ∧
    bytesAfter .decode (inputState (List.replicate 32 0)) 0x02 2 = [4, 0x01] := by decide

/-! ## The bus, the engine and the host -/

/-- 20_memory.md R62 and 10_state.md R33: a write to the reserved address 0x07 changes nothing while idle. -/
theorem test_write_reserved : memWrite 0x07 0xFF five = five := by decide

/-- 10_state.md R42: a write while BUSY = 1 is lost and sets WIGN. -/
theorem test_write_busy : regAt 0x01 (memWrite 0x04 0x05 (busyState 0x01)) = 0x09 ∧
    regAt 0x04 (memWrite 0x04 0x05 (busyState 0x01)) = 0 := by decide

/-- 30_encoding.md R83: an illegal byte is stored, and its completion step raises ILLEGAL_CMD. -/
theorem test_illegal_command : (match engineStep (busyState 0x17) with
    | .next t => [regAt 0x00 t, regAt 0x01 t, regAt 0x02 t]
    | _ => []) = [0x17, 0x06, 0x01] := by decide

/-- 70_reset_and_hazards.md R252: reset abandons the command in flight. -/
theorem test_reset_cycle :
    busCycle { rst := true, we := true, re := false, addr := 0, wdata := 1 } (busyState 0x01) = State.reset := by decide

/-- The placed command is the one the next step runs, at reset (70_reset_and_hazards.md R254: VALIDATION). -/
theorem test_withFetchWord : (match step (State.reset.withFetchWord 8 0x87) with
    | .next t => [regAt 0x00 t, regAt 0x01 t, regAt 0x02 t]
    | _ => []) = [0x87, 0x06, 0x02] := by decide

/-- 30_encoding.md R89: the expansion of `wrser "42"` and of `run ENCODE emu` on the line after it. -/
theorem test_expand : expandProgram [.wrser [4, 2], .run .encodeEmu] =
    [.wr (.reg .serLen) (.num 2), .wr (.add (.reg .serChar) (.num 0)) (.num 0x34),
      .wr (.add (.reg .serChar) (.num 1)) (.num 0x32), .wr (.reg .cmd) (.num 0x87), .label (.fresh 1),
      .rd (.reg .status) varSt, .ifGoto (.test (.var varSt) (.num 1)) (.fresh 1)] := by decide

/-- 00_scope.md R11: the operators, on numbers worked out by hand. -/
theorem test_operators :
    evalExpr [] (.rotl16 (.num 0x8001)) = 0x0003 ∧ evalExpr [] (.ceilHalf (.num 5)) = 3 ∧
    evalExpr [] (.pow (.num 2) (.num 10)) = 1024 ∧ evalExpr [] (.div (.num 7) (.num 2)) = 3 ∧
    evalExpr [] (.mod (.num 7) (.num 2)) = 1 ∧ evalExpr [] (.sub (.num 7) (.num 2)) = 5 := by decide

/-! ## Witnesses: for every obligation with hypotheses, a concrete case that meets them -/

/-- Serial "123456789012", as long as a serial can be. -/
def twelve : State :=
  serialState 12 [0x31, 0x32, 0x33, 0x34, 0x35, 0x36, 0x37, 0x38, 0x39, 0x30, 0x31, 0x32]

theorem five_serialOk : SerialOk five := (serialValid_iff _).1 (by decide)

theorem twelve_serialOk : SerialOk twelve := (serialValid_iff _).1 (by decide)

theorem notDigits_not_serialOk : ¬ SerialOk notDigits := (serialValid_eq_false _).1 (by decide)

theorem thirteen_not_serialOk : ¬ SerialOk (serialState 13 (List.replicate 12 0x30)) :=
  (serialValid_eq_false _).1 (by decide)

theorem empty_not_serialOk : ¬ SerialOk State.reset := (serialValid_eq_false _).1 (by decide)

/-- EveryRegisterIsReadAtItsAddress: the last index of each array. -/
theorem witness_register_bounds : (11 : Nat) < 12 ∧ (7 : Nat) < 8 ∧ (63 : Nat) < 64 := by decide

/-- ReservedAddressesReadZeroIgnoreWrites and ReadsReturnTheByteChangeNothing: the first and the last reserved address,
idle and busy. -/
theorem witness_reserved : (ReservedRegs (0x07 : Byte).toNat ∧ State.reset.busy = false) ∧
    ReservedRegs (0xFF : Byte).toNat ∧ (busyState 0x01).busy = true := by
  unfold ReservedRegs; decide

/-- HostWriteEffects: a busy state; CMD; the first and the last input register; a read-only one. -/
theorem witness_write_busy : (busyState 0x01).busy = true := by decide

theorem witness_write_cmd : State.reset.busy = false ∧ (0x00 : Byte) = 0x00 := by decide

theorem witness_write_input : State.reset.busy = false ∧ InputRegs (0x04 : Byte).toNat ∧
    InputRegs (0x1B : Byte).toNat ∧ InputRegs (0x7F : Byte).toNat := by unfold InputRegs; decide

theorem witness_write_other : State.reset.busy = false ∧ ((0x01 : Byte) ≠ 0x00 ∧ ¬ InputRegs (0x01 : Byte).toNat) ∧
    (0x80 : Byte) ≠ 0x00 ∧ ¬ InputRegs (0x80 : Byte).toNat := by unfold InputRegs; decide

/-- WindowReachesEachRegisterOnce: the first address above the window. -/
theorem witness_window : Config.codecBase + 256 < Config.codecBase ∨ Config.codecBase + 256 ≤ Config.codecBase + 256 :=
  .inr le_rfl

/-- DecodeIsTheInverseOfEncode: both sides of the equivalence occur. -/
theorem witness_decode_encode : decodeByte 0x87 = .ok .encodeEmu ∧ (0x87 : Byte) = encode .encodeEmu := by decide

/-- IllegalBytesAcceptedThenIllegalCmd: the bytes beside the legal ones, idle and busy. -/
theorem witness_illegal : (0x09 : Byte).toNat ∉ [0x01, 0x02, 0x03, 0x04, 0x05, 0x06, 0x07, 0x87, 0x08] ∧
    (0x00 : Byte).toNat ∉ [0x01, 0x02, 0x03, 0x04, 0x05, 0x06, 0x07, 0x87, 0x08] ∧ State.reset.busy = false ∧
    (busyState 0x09).busy = true ∧ memRead 0x00 (busyState 0x09) = 0x09 := by decide

/-- StepRunsTheDecodedCommand: nothing scheduled, and the engine scheduled. -/
theorem witness_step_unscheduled : (busyState 0x01).busy = true ∧
    decodeByte (busyState 0x01).cmd = .ok .validate ∧ (busyState 0x01).turns = [] := by decide

theorem witness_step_scheduled : ({ busyState 0x08 with turns := [.engine, .host] } : State).busy = true ∧
    decodeByte ({ busyState 0x08 with turns := [.engine, .host] } : State).cmd = .ok .decode ∧
    ({ busyState 0x08 with turns := [.engine, .host] } : State).turns = .engine :: [.host] := by decide

/-- EveryCommandCompletesKeepingInputs: an input register. -/
theorem witness_completes : InputRegs (0x40 : Byte).toNat := by unfold InputRegs; decide

/-- Serial "5" beside other results and an unread character, read by every command as `five` is. -/
def fiveAgain : State := { five with result := 0x3F, errcode := 3, serChar := fillBytes 12 [0x35, 0x41], csumHi := 9 }

/-- ResultsDependOnInputsOnly. -/
theorem witness_depends : ∃ t t', (∀ a : Byte, ReadRegs five a.toNat → memRead a fiveAgain = memRead a five) ∧
    five.err = false ∧ fiveAgain.err = false ∧ exec .encodePlain five = .next t ∧
    exec .encodePlain fiveAgain = .next t' :=
  ⟨_, _, by unfold ReadRegs; decide, by decide, by decide, rfl, rfl⟩

/-- ReissueGivesTheSameResults. -/
theorem witness_reissue : ∃ t u, (acceptCommand 0x02 five).err = false ∧ (acceptCommand 0x02 five).errcode = 0 ∧
    memRead 0x00 (acceptCommand 0x02 five) = encode .bcdpack ∧ exec .bcdpack (acceptCommand 0x02 five) = .next t ∧
    exec .bcdpack (acceptCommand (encode .bcdpack) t) = .next u :=
  ⟨_, _, by decide, by decide, by decide, rfl, rfl⟩

/-- ValidateWritesTheVerdict, BcdpackWritesTheBlock, BlockIsTheSerialNumberInPairs, EncodeWritesTheImage: the shortest
and the longest valid serial, and invalid ones of length 0, 3 and 13. -/
theorem witness_serials : (SerialOk five ∧ SerialOk twelve) ∧
    ¬ SerialOk notDigits ∧ ¬ SerialOk State.reset ∧ ¬ SerialOk (serialState 13 (List.replicate 12 0x30)) :=
  ⟨⟨five_serialOk, twelve_serialOk⟩, notDigits_not_serialOk, empty_not_serialOk, thirteen_not_serialOk⟩

/-- BcdunpackWritesTheDigits: length 6, and 5 and 7. -/
theorem witness_bcdunpack : regAt 0x05 (inputState (List.replicate 6 0x99)) = 6 ∧
    regAt 0x05 (inputState (List.replicate 5 0)) ≠ 6 ∧ regAt 0x05 (inputState (List.replicate 7 0)) ≠ 6 := by decide

/-- BcdunpackWritesTheDigits: twelve decimal digits after it, and twelve nibbles that are not. -/
theorem witness_bcdunpack_digits :
    (∃ t, exec .bcdunpack (inputState (List.replicate 6 0x99)) = .next t ∧ ∀ i, i < 12 → regAt (0x20 + i) t ≤ 9) ∧
    ∃ t, exec .bcdunpack (inputState (List.replicate 6 0x9A)) = .next t ∧ ¬ ∀ i, i < 12 → regAt (0x20 + i) t ≤ 9 :=
  ⟨⟨_, rfl, by decide⟩, _, rfl, by decide⟩

/-- UnpackInvertsPack. -/
theorem witness_unpack : SerialOk five ∧ ([0x12, 0x90, 0x78, 0x56, 0x34, 0x12] : List Byte).length = 6 ∧
    digitsOk (blockDigits [0x12, 0x90, 0x78, 0x56, 0x34, 0x12]) = true := ⟨five_serialOk, by decide⟩

/-- CsumWritesTheChecksum: the empty and the largest input; one byte, and 65 and 66. -/
theorem witness_csum : (regAt 0x05 State.reset ≤ 64 ∧ regAt 0x05 State.reset % 2 = 0) ∧
    (regAt 0x05 (inputState (List.replicate 64 1)) ≤ 64 ∧ regAt 0x05 (inputState (List.replicate 64 1)) % 2 = 0) ∧
    regAt 0x05 (inputState [0]) % 2 ≠ 0 ∧ 64 < regAt 0x05 (inputState (List.replicate 66 1)) := by decide

/-- ChecksumHasTheClosedForm and ChecksumSeesEveryWordAndTheirOrder. -/
theorem witness_checksum : ([0x0001, 0x0002] : List Word).length = ([0x8000, 0xFFFF] : List Word).length ∧
    (0x0001 : Word) ≠ 0x0002 := by decide

/-- IlvWritesTheInterleavedBytes: 32 bytes and 33. -/
theorem witness_ilv : regAt 0x05 (inputState (List.replicate 32 1)) ≤ 32 ∧
    32 < regAt 0x05 (inputState (List.replicate 33 1)) := by decide

/-- DilvWritesTheEvenBytes: 64 bytes and 65. -/
theorem witness_dilv : regAt 0x05 (inputState (List.replicate 64 1)) ≤ 64 ∧
    64 < regAt 0x05 (inputState (List.replicate 65 1)) := by decide

/-- DeinterleaveInvertsInterleave: both sides of its equivalence occur. -/
theorem witness_deinterleave : interleave (deinterleave [0xAB, 0x00]) = [0xAB, 0x00] ∧ [0xAB, 0x00].length % 2 = 0 := by
  decide

/-- InterleavedImageIsThePlainOneInterleaved and ModeIsDetectedByTheOddBytes. -/
theorem witness_block : ([0x12, 0x90, 0x78, 0x56, 0x34, 0x12] : List Byte).length = 6 ∧
    regAt 0x05 (inputState s5Image) ≤ 64 := by decide

/-- The interleaved image of serial "123456789012" (95 V61). -/
def v61Image : List Byte := interleave s5Image

/-- Interleaved and plain inputs (DetectedIl), the empty one among them. -/
theorem witness_detected : DetectedIl State.reset ∧ DetectedIl (inputState v61Image) ∧
    DetectedIl (inputState (List.replicate 32 0)) ∧ ¬ DetectedIl (inputState s5Image) ∧
    ¬ DetectedIl (inputState (s5Image.take 31)) ∧ ¬ DetectedIl (inputState (List.replicate 64 1)) := by
  unfold DetectedIl; decide

/-- DecodeRefusesEveryOtherLength: above 64; interleaved of length 0 and 32; plain of length 31 and 64. -/
theorem witness_decode_refuses : 64 < regAt 0x05 (inputState (List.replicate 65 0)) ∧
    (regAt 0x05 State.reset ≤ 64 ∧ (true = true ↔ DetectedIl State.reset) ∧
      regAt 0x05 State.reset ≠ (if true then 64 else 32)) ∧
    (regAt 0x05 (inputState (List.replicate 32 0)) ≤ 64 ∧
      (true = true ↔ DetectedIl (inputState (List.replicate 32 0))) ∧
      regAt 0x05 (inputState (List.replicate 32 0)) ≠ (if true then 64 else 32)) ∧
    (regAt 0x05 (inputState (s5Image.take 31)) ≤ 64 ∧ (false = true ↔ DetectedIl (inputState (s5Image.take 31))) ∧
      regAt 0x05 (inputState (s5Image.take 31)) ≠ (if false then 64 else 32)) ∧
    (regAt 0x05 (inputState (List.replicate 64 1)) ≤ 64 ∧ (false = true ↔ DetectedIl (inputState (List.replicate 64 1))) ∧
      regAt 0x05 (inputState (List.replicate 64 1)) ≠ (if false then 64 else 32)) := by
  unfold DetectedIl; decide

/-- DecodeReportsTheImage: a plain and an interleaved image. -/
theorem witness_decode_reports :
    ((false = true ↔ DetectedIl (inputState s5Image)) ∧ regAt 0x05 (inputState s5Image) = if false then 64 else 32) ∧
    ((true = true ↔ DetectedIl (inputState v61Image)) ∧ regAt 0x05 (inputState v61Image) = if true then 64 else 32) := by
  unfold DetectedIl; decide

/-- DecodeReadsOnlyTheFirstCopy: byte 8 of the image changed (95 V67), and its data byte in the interleaved one. -/
theorem witness_first_copy :
    ((false = true ↔ DetectedIl (inputState s5Image)) ∧ (false = true ↔ DetectedIl (inputState (s5Image.set 8 0xED))) ∧
      regAt 0x05 (inputState s5Image) = (if false then 64 else 32) ∧
      SameExcept (fun n => 0x40 + (if false then 16 else 8) ≤ n ∧ n < 0x40 + (if false then 48 else 24))
        (inputState s5Image) (inputState (s5Image.set 8 0xED))) ∧
    ((true = true ↔ DetectedIl (inputState v61Image)) ∧ (true = true ↔ DetectedIl (inputState (v61Image.set 46 0xED))) ∧
      regAt 0x05 (inputState v61Image) = (if true then 64 else 32) ∧
      SameExcept (fun n => 0x40 + (if true then 16 else 8) ≤ n ∧ n < 0x40 + (if true then 48 else 24))
        (inputState v61Image) (inputState (v61Image.set 46 0xED))) := by
  unfold DetectedIl SameExcept; decide

/-- EncodeThenDecodeRoundTrips: serial "123456789012" in both modes (95 V60, V61). -/
theorem witness_round_trip (emu : Bool) : ∃ t, SerialOk twelve ∧
    exec (if emu then .encodeEmu else .encodePlain) twelve = .next t ∧
    memRead 0x05 (inputState (if emu then v61Image else s5Image)) = memRead 0x06 t ∧
    ∀ i, i < regAt 0x06 t →
      memRead (addrAt 0x40 i) (inputState (if emu then v61Image else s5Image)) = memRead (addrAt 0x80 i) t := by
  cases emu
  · exact ⟨_, twelve_serialOk, rfl, by decide, by decide⟩
  · exact ⟨_, twelve_serialOk, rfl, by decide, by decide⟩

/-- TamperedImagesGetTheirVerdicts: the premises all five clauses share. -/
theorem witness_tamper_images : SerialOk twelve ∧ plainImage (bcdBlock twelve) = s5Image ∧
    interleavedImage (bcdBlock twelve) = v61Image := ⟨twelve_serialOk, by decide⟩

/-- Its clauses, each at the ends of its range: the stored checksum's last bit, an odd offset, a footer byte, a
truncation, a byte of copy 3. -/
theorem witness_tamper_checksum :
    inputList (inputState (s5Image.set 7 (s5Image.getD 7 0 ^^^ BitVec.twoPow 8 7))) =
      s5Image.set 7 (s5Image.getD 7 0 ^^^ BitVec.twoPow 8 7) ∧
    inputList (inputState (v61Image.set 14 (v61Image.getD 14 0 ^^^ BitVec.twoPow 8 7))) =
      v61Image.set 14 (v61Image.getD 14 0 ^^^ BitVec.twoPow 8 7) := by decide

theorem witness_tamper_odd : 63 % 2 = 1 ∧
    inputList (inputState (v61Image.set 63 (v61Image.getD 63 0 ^^^ BitVec.twoPow 8 7))) =
      v61Image.set 63 (v61Image.getD 63 0 ^^^ BitVec.twoPow 8 7) := by decide

theorem witness_tamper_footer : (0x51 : Byte) ≠ footerByte 7 ∧
    inputList (inputState (s5Image.set 31 0x51)) = s5Image.set 31 0x51 ∧
    inputList (inputState (v61Image.set 62 0x51)) = v61Image.set 62 0x51 := by decide

theorem witness_tamper_truncated : 31 < s5Image.length ∧ inputList (inputState (s5Image.take 31)) = s5Image.take 31 ∧
    63 < v61Image.length ∧ inputList (inputState (v61Image.take 63)) = v61Image.take 63 ∧
    inputList State.reset = s5Image.take 0 := by decide

theorem witness_tamper_copies :
    ((inputList (inputState (s5Image.set 23 0xED))).length = s5Image.length ∧
      isInterleaved (inputList (inputState (s5Image.set 23 0xED))) = false ∧
      ∀ i, i < s5Image.length → i < 8 ∨ 24 ≤ i →
        (inputList (inputState (s5Image.set 23 0xED))).getD i 0 = s5Image.getD i 0) ∧
    (inputList (inputState (v61Image.set 46 0xED))).length = v61Image.length ∧
      isInterleaved (inputList (inputState (v61Image.set 46 0xED))) = true ∧
      ∀ i, i < v61Image.length → i < 16 ∨ 48 ≤ i →
        (inputList (inputState (v61Image.set 46 0xED))).getD i 0 = v61Image.getD i 0 := by decide

/-- ErrorsArePrecise: an error with no write before it, and DECODE's FORMAT. -/
theorem witness_errors :
    (∃ t, notDigits.err = false ∧ exec .bcdpack notDigits = .next t ∧ t.err = true) ∧
    ∃ t, State.reset.err = false ∧ exec .decode State.reset = .next t ∧ t.err = true :=
  ⟨⟨_, by decide, rfl, by decide⟩, _, by decide, rfl, by decide⟩

/-- ErrorCodesFollowTheTable: a byte that is no command, and one that is. -/
theorem witness_error_codes :
    ((busyState 0x17).busy = true ∧ (busyState 0x17).err = false ∧ (busyState 0x17).errcode = 0 ∧
      decodeByte (busyState 0x17).cmd = .error .reservedBits) ∧
    (busyState 0x02).busy = true ∧ (busyState 0x02).err = false ∧ (busyState 0x02).errcode = 0 ∧
      decodeByte (busyState 0x02).cmd = .ok .bcdpack := by decide

/-- ResetClearsEveryLocation: reset while a write strobe is up. -/
theorem witness_reset : ({ rst := true, we := true, re := true, addr := 0, wdata := 7 } : Ports).rst = true := by decide

/-- CommandsStraightAfterReset. -/
theorem witness_all_zero : ∀ a : Byte, memRead a State.reset = 0 := by decide

/-- A state in the middle of a run: CSUM accepted with two bytes of input, the engine next, one host variable set. -/
def midRun : State :=
  { acceptCommand 0x04 (inputState [0x00, 0x80]) with turns := [.engine], host := ⟨[.halt], 0, [(0, 1)]⟩ }

/-- EveryStepKeepsTheInvariant. -/
theorem witness_invariant : ∃ t, Inv midRun ∧ step midRun = .next t := by
  refine ⟨_, ⟨⟨fun k hk => ?_, by decide, by decide, by decide, by decide, by decide⟩,
    ⟨fun k hk => ?_, by decide, by decide, by decide⟩, ⟨by decide, by decide⟩, List.pairwise_singleton _ _⟩, rfl⟩
  · have h : ∀ j, j < 8 → 4 ≤ j → midRun.status.getLsbD j = false := by decide
    by_cases h8 : k < 8
    · exact h k h8 hk
    · exact BitVec.getLsbD_of_ge _ _ (by omega)
  · have h : ∀ j, j < 8 → 6 ≤ j → midRun.result.getLsbD j = false := by decide
    by_cases h8 : k < 8
    · exact h k h8 hk
    · exact BitVec.getLsbD_of_ge _ _ (by omega)

/-- InputsAreFrozenWhileBusy: a write to IN_BUF, a write to CMD and a read between acceptance and completion. -/
theorem witness_frozen : midRun.busy = true ∧
    ∀ p ∈ [writePorts 0x40 0x11, writePorts 0x00 0x02, readPorts 0x01], p.rst = false := by decide

/-- AcceptedCommandsEventuallyComplete: the host polls, a cycle reads, the engine moves. -/
theorem witness_eventually :
    ({ busyState 0x01 with turns := [.host, .cycle (readPorts 0x01), .engine] } : State).busy = true ∧
    ∀ p, Turn.cycle p ∈ ({ busyState 0x01 with turns := [.host, .cycle (readPorts 0x01), .engine] } : State).turns →
      p.rst = false :=
  ⟨by decide, fun p hp => by simp at hp; subst hp; rfl⟩

/-- ResultsStayUntilTheNextCommand. -/
theorem witness_results_stay : State.reset.busy = false ∧
    ∀ p ∈ [writePorts 0x05 0x02, readPorts 0x80], p.rst = false ∧ (p.we = true → p.addr ≠ 0x00) := by decide

/-- The reset state with a host program. -/
def hostState (prog : List HostStmt) : State := { State.reset with host := ⟨prog, 0, []⟩ }

/-- HostStatementsAreOneTransaction: the largest address and value, and one more. -/
theorem witness_host_wr : (hostState [.wr (.num 255) (.num 255)]).host.prog[0]? = some (.wr (.num 255) (.num 255)) ∧
    evalExpr [] (.num 255) < 256 ∧
    (hostState [.wr (.num 256) (.num 0)]).host.prog[0]? = some (.wr (.num 256) (.num 0)) ∧
    256 ≤ evalExpr [] (.num 256) := by decide

theorem witness_host_rd : (hostState [.rd (.num 255) 3]).host.prog[0]? = some (.rd (.num 255) 3) ∧
    evalExpr [] (.num 255) < 256 ∧
    (hostState [.rd (.num 256) 3]).host.prog[0]? = some (.rd (.num 256) 3) ∧ 256 ≤ evalExpr [] (.num 256) := by decide

/-- HostOnlyStatementsAreInvisible: each kind of statement, at the host's position, and a step that it takes. -/
theorem witness_host_assign : ∃ t, (hostState [.assign 2 (.num 9)]).host.prog[0]? = some (.assign 2 (.num 9)) ∧
    hostStep (hostState [.assign 2 (.num 9)]) = .next t := ⟨_, rfl, rfl⟩

theorem witness_host_goto :
    (hostState [.goto (.named 1), .label (.named 1)]).host.prog[0]? = some (.goto (.named 1)) ∧
    ∀ j : Nat, (hostState [.goto (.named 1), .label (.named 1)]).host.prog[j]? =
      some (HostStmt.label (.named 1)) ↔ j = 1 := by
  refine ⟨rfl, fun j => ?_⟩
  match j with
  | 0 => decide
  | 1 => decide
  | k + 2 => simp [hostState]

theorem witness_host_no_label :
    (hostState [.goto (.named 1)]).host.prog[0]? = some (.goto (.named 1)) ∧
    ¬ ∃ k, ∀ j : Nat, (hostState [.goto (.named 1)]).host.prog[j]? = some (HostStmt.label (.named 1)) ↔ j = k := by
  refine ⟨rfl, fun ⟨k, h⟩ => ?_⟩
  have hk := (h k).2 rfl
  match k, hk with
  | 0, hk => exact absurd hk (by decide)
  | j + 1, hk => simp [hostState] at hk

theorem witness_host_if :
    (hostState [.ifGoto (.lt (.num 1) (.num 2)) (.named 1)]).host.prog[0]? =
      some (.ifGoto (.lt (.num 1) (.num 2)) (.named 1)) ∧ evalCond [] (.lt (.num 1) (.num 2)) = true ∧
    evalCond [] (.lt (.num 2) (.num 2)) = false := by decide

theorem witness_host_label_halt :
    (hostState [.label (.named 1)]).host.prog[0]? = some (.label (.named 1)) ∧
    (hostState [.halt]).host.prog[0]? = some .halt := by decide

/-- RunIssuesTheCommandAndWaits, WrserLoadsAValidSerial, WrinLoadsTheInputBytes: idle, nothing scheduled; the shortest
and the longest serial, and the longest input. -/
theorem witness_host_idle : State.reset.busy = false ∧ State.reset.turns = [] ∧
    ([] : List (Fin 10)).length ≤ 12 ∧ (List.replicate 12 (9 : Fin 10)).length ≤ 12 ∧
    1 ≤ (List.replicate 12 (9 : Fin 10)).length ∧ (List.replicate 64 (0xFF : Byte)).length ≤ 64 := by decide

/-- RdoutReadsTheOutputBytes: OUT_LEN 0, and 64. -/
theorem witness_rdout : (State.reset.busy = false ∧ State.reset.turns = [] ∧ regAt 0x06 State.reset ≤ 64) ∧
    regAt 0x06 { State.reset with outLen := 64 } ≤ 64 ∧ varN < 2 := by decide

end Sys2Proof.Tests
end

/-! SUPPORT. What a completion step does, as one function of the operands: the writes a command makes, the two ways it
ends, and what a frame and a second state see of both. -/

namespace Sys2Proof.Machine

/-! ## The end of a completion step, by its error if any -/

/-- A completion step's end: `complete()` without an error, `raise CmdError(code)` with one. -/
def endCommand : Option CmdError → State → State
  | none => completeCmd
  | some e => raiseCmdError e

theorem endCommand_frame (e : Option CmdError) (u : State) : SameExcept StatusRegs u (endCommand e u) := by
  cases e with
  | none => exact (completeCmd_frame u).mono fun _ h => .inl h
  | some c => exact raiseCmdError_frame c u

/-- Each bit of STATUS after the end depends on that bit before it, and on nothing else of the state. -/
theorem endCommand_bit_congr (e : Option CmdError) {u u' : State} {k : Nat}
    (h : u'.status.getLsbD k = u.status.getLsbD k) :
    (endCommand e u').status.getLsbD k = (endCommand e u).status.getLsbD k := by
  cases e <;> simp [endCommand, statusCompleted_bit, statusErr_bit, h]

/-- The end of a command carries a difference in STATUS to STATUS alone. -/
theorem endCommand_congr (e : Option CmdError) {u u' : State} (h : SameExcept (fun n => n = 0x01) u u') :
    SameExcept (fun n => n = 0x01) (endCommand e u) (endCommand e u') := by
  intro a ha
  by_cases h2 : a = 0x02#8
  · subst h2
    cases e with
    | none => exact h 0x02#8 ha
    | some c => rfl
  · have hst : ¬ StatusRegs a.toNat := by
      rintro (h1 | h1)
      · exact ha h1
      · exact h2 (BitVec.eq_of_toNat_eq h1)
    rw [endCommand_frame e u' a hst, endCommand_frame e u a hst, h a ha]

/-! ## The writes of a command -/

/-- The writes a command can make before its end, each shape once. -/
inductive CommandWrites : (State → State) → Prop
  /-- None: a command refused. -/
  | none : CommandWrites id
  /-- VALIDATE (40_bcd.md R104). -/
  | verdict (ok : Bool) : CommandWrites (setResult (resultValidate ok))
  /-- BCDPACK, ILV and DILV (40_bcd.md R105; 42_interleave.md R152, R153). -/
  | out (b : List Byte) (h : b.length ≤ 64) : CommandWrites (setOut b)
  /-- BCDUNPACK (40_bcd.md R106). -/
  | unpack (ds : List Nibble) :
      CommandWrites fun s => setResult (resultUnpack (digitsOk ds)) (setDigits ds s)
  /-- CSUM (41_checksum.md R131). -/
  | csum (w : Word) : CommandWrites (setCsum w)
  /-- ENCODE (43_rom_image.md R173). -/
  | image (w : Word) (b : List Byte) (h : b.length ≤ 64) : CommandWrites fun s => setCsum w (setOut b s)
  /-- DECODE's FORMAT branch (43_rom_image.md R186). -/
  | format (il : Bool) : CommandWrites (decodeFormat il)
  /-- DECODE's report (43_rom_image.md R184). -/
  | report (il : Bool) (img : List Byte) : CommandWrites (decodeReport il img)

variable {W : State → State}

/-- A command's writes leave STATUS and ERRCODE to its end, and touch nothing but the codec. -/
theorem CommandWrites.keeps (hW : CommandWrites W) (s : State) : KeepsAllButResults s (W s) := by
  cases hW <;> simp [KeepsAllButResults, OutsideSame, decodeFormat, decodeReport]

/-- Each location a command writes gets a value that does not depend on the state written to: in two states, a location
ends up equal in both or as it was in both. -/
theorem CommandWrites.alike (hW : CommandWrites W) (s s' : State) (a : Byte) :
    memRead a (W s') = memRead a (W s) ∨
      (memRead a (W s) = memRead a s ∧ memRead a (W s') = memRead a s') := by
  unfold memRead
  generalize locate a = l
  cases hW with
  | none => exact .inr ⟨rfl, rfl⟩
  | verdict ok => cases l <;> simp [readLoc]
  | out b h => cases l <;> simp [readLoc]
  | unpack ds => cases l <;> simp [readLoc]
  | csum w => cases l <;> simp [readLoc]
  | image w b h => cases l <;> simp [readLoc]
  | format il => cases l <;> simp [readLoc, decodeFormat]
  | report il img => cases l <;> simp [readLoc, decodeReport]

/-- Writes carry a difference in the registers `P` to no other register. -/
theorem CommandWrites.congr (hW : CommandWrites W) {P : Nat → Prop} {s s' : State} (h : SameExcept P s s') :
    SameExcept P (W s) (W s') := by
  intro a ha
  rcases hW.alike s s' a with heq | ⟨hs, hs'⟩
  · exact heq
  · rw [hs, hs', h a ha]

/-! ## A command is a function of its operands -/

/-- Two states give every command the same operands: the lengths, the serial and the input bytes. -/
structure SameOperands (s s' : State) : Prop where
  serLen : s'.serLen = s.serLen
  inLen : s'.inLen = s.inLen
  serialChars : serialChars s' = serialChars s
  inputBytes : inputBytes s' = inputBytes s

variable {s s' : State}

theorem SameOperands.refl (s : State) : SameOperands s s := ⟨rfl, rfl, rfl, rfl⟩

theorem SameOperands.serialValid (h : SameOperands s s') : serialValid s' = serialValid s := by
  simp only [Machine.serialValid, h.serLen, h.serialChars]

theorem SameOperands.bcdBlock (h : SameOperands s s') : bcdBlock s' = bcdBlock s := by
  simp only [Machine.bcdBlock, paddedDigits, h.serLen, h.serialChars]

/-- ENCODE, for an image that fits OUT_BUF. -/
theorem encodeWith_operands (image : List Byte → List Byte) (s : State)
    (hlen : SerialOk s → (image (bcdBlock s)).length ≤ 64) :
    ∃ W e, CommandWrites W ∧ ∀ s', SameOperands s s' → encodeWith image s' = .next (endCommand e (W s')) := by
  by_cases hv : serialValid s = true
  · exact ⟨_, none, .image (checksum (bcdBlock s)) _ (hlen ((serialValid_iff s).1 hv)),
      fun s' h => by simp [encodeWith, h.serialValid, h.bcdBlock, hv, endCommand]⟩
  · exact ⟨_, some .validation, .none, fun s' h => by simp [encodeWith, h.serialValid, hv, endCommand]⟩

/-- EVERY COMMAND, BY ITS OPERANDS: on every state with the operands of `s` it makes the same writes and ends with the same
error or none. -/
theorem exec_operands (i : Instr) (s : State) :
    ∃ W e, CommandWrites W ∧ ∀ s', SameOperands s s' → exec i s' = .next (endCommand e (W s')) := by
  cases i with
  | validate =>
    exact ⟨_, none, .verdict (serialValid s), fun s' h => by simp [exec, execValidate, h.serialValid, endCommand]⟩
  | bcdpack =>
    by_cases hv : serialValid s = true
    · have hlen := bcdBlock_length ((serialValid_iff s).1 hv)
      exact ⟨_, none, .out (bcdBlock s) (by omega),
        fun s' h => by simp [exec, execBcdpack, h.serialValid, h.bcdBlock, hv, endCommand]⟩
    · exact ⟨_, some .validation, .none, fun s' h => by simp [exec, execBcdpack, h.serialValid, hv, endCommand]⟩
  | bcdunpack =>
    by_cases hl : s.inLen.toNat = bcdBytes
    · exact ⟨_, none, .unpack (blockDigits (inputBytes s)),
        fun s' h => by simp [exec, execBcdunpack, h.inLen, h.inputBytes, hl, endCommand]⟩
    · exact ⟨_, some .length, .none, fun s' h => by simp [exec, execBcdunpack, h.inLen, hl, endCommand]⟩
  | csum =>
    by_cases hl : s.inLen.toNat > bufBytes ∨ s.inLen.toNat % 2 ≠ 0
    · exact ⟨_, some .length, .none, fun s' h => by simp only [exec, execCsum, h.inLen, if_pos hl, endCommand, id]⟩
    · exact ⟨_, none, .csum (checksum (inputBytes s)),
        fun s' h => by simp only [exec, execCsum, h.inLen, h.inputBytes, if_neg hl, endCommand]⟩
  | ilv =>
    by_cases hl : s.inLen.toNat > bufBytes / 2
    · exact ⟨_, some .length, .none, fun s' h => by simp [exec, execIlv, h.inLen, hl, endCommand]⟩
    · have h32 : s.inLen.toNat ≤ 32 := not_lt.1 hl
      have hlen : (interleave (inputBytes s)).length ≤ 64 := by
        rw [interleave_length, inputBytes_length (by omega)]
        omega
      exact ⟨_, none, .out _ hlen, fun s' h => by simp [exec, execIlv, h.inLen, h.inputBytes, hl, endCommand]⟩
  | dilv =>
    by_cases hl : s.inLen.toNat > bufBytes
    · exact ⟨_, some .length, .none, fun s' h => by simp [exec, execDilv, h.inLen, hl, endCommand]⟩
    · have h64 : s.inLen.toNat ≤ 64 := not_lt.1 hl
      have hlen : (deinterleave (inputBytes s)).length ≤ 64 := by
        rw [deinterleave_length, inputBytes_length h64]
        omega
      exact ⟨_, none, .out _ hlen, fun s' h => by simp [exec, execDilv, h.inLen, h.inputBytes, hl, endCommand]⟩
  | encodePlain =>
    exact encodeWith_operands plainImage s fun hs => by simp [plainImage_length, bcdBlock_length hs]
  | encodeEmu =>
    exact encodeWith_operands interleavedImage s fun hs => by
      simp [interleavedImage_eq, interleave_length, plainImage_length, bcdBlock_length hs]
  | decode =>
    by_cases hl : s.inLen.toNat > bufBytes
    · exact ⟨_, some .length, .none, fun s' h => by simp [exec, execDecode, h.inLen, hl, endCommand]⟩
    · by_cases hf : (inputBytes s).length = imageBytes (isInterleaved (inputBytes s))
      · exact ⟨_, none, .report (isInterleaved (inputBytes s)) (inputBytes s),
          fun s' h => by simp [exec, execDecode, h.inLen, h.inputBytes, hl, hf, endCommand]⟩
      · exact ⟨_, some .format, .format (isInterleaved (inputBytes s)),
          fun s' h => by simp [exec, execDecode, h.inLen, h.inputBytes, hl, hf, endCommand]⟩

/-- A completion step with a command in flight is a function of CMD and the operands. -/
theorem engineStep_operands (s : State) :
    ∃ W e, CommandWrites W ∧ ∀ s', s'.busy = true → s'.cmd = s.cmd → SameOperands s s' →
      engineStep s' = .next (endCommand e (W s')) := by
  cases hd : decodeByte s.cmd with
  | ok i =>
    obtain ⟨W, e, hW, hx⟩ := exec_operands i s
    exact ⟨W, e, hW, fun s' hb' hc ho => by simp [engineStep, hb', hc, hd, hx s' ho]⟩
  | error _ =>
    exact ⟨_, some .illegalCmd, .none, fun s' hb' hc _ => by simp [engineStep, hb', hc, hd, endCommand]⟩

/-! ## How a completion step ends -/

/-- A completion step ended, by `complete()` or by a raise, and wrote STATUS, ERRCODE and result registers only. -/
def Ended (s t : State) : Prop :=
  (EndsOk s t ∨ ∃ e : CmdError, EndsErr e.code.toNat s t) ∧
    SameExcept (fun n => StatusRegs n ∨ ResultRegs n) s t ∧ OutsideSame s t

/-- The writes of a completion step reach result registers only. -/
theorem KeepsAllButResults.frame {u : State} (h : KeepsAllButResults s u) : SameExcept ResultRegs s u := by
  obtain ⟨hst, herr, hcmd, hsl, hil, hsc, hib, _⟩ := h
  refine sameExcept_of_readLoc fun l _ hP => ?_
  have hdig (i : Nat) (hi : i < 12) : ResultRegs (0x20 + i) := .inl (by unfold ReportRegs; omega)
  have hfoot (i : Nat) (hi : i < 8) : ResultRegs (0x30 + i) := .inl (by unfold ReportRegs; omega)
  have hout (i : Nat) (hi : i < 64) : ResultRegs (0x80 + i) := .inr (by unfold OutRegs; omega)
  cases l <;> simp_all [readLoc, locAddr, ResultRegs, ReportRegs, CsumRegs, OutRegs]

theorem ended_endCommand (hW : CommandWrites W) (e : Option CmdError) (s : State) : Ended s (endCommand e (W s)) := by
  have hk := hW.keeps s
  obtain ⟨hst, herr, _, _, _, _, _, hout⟩ := id hk
  refine ⟨?_, (hk.frame.mono fun _ => .inr).trans ((endCommand_frame e (W s)).mono fun _ => .inl), ?_⟩
  · cases e with
    | none => exact .inl (endsOk_completeCmd hst herr)
    | some c => exact .inr ⟨c, endsErr_raise c hst⟩
  · cases e <;> exact hout

theorem exec_ended (i : Instr) (s : State) : ∃ t, exec i s = .next t ∧ Ended s t := by
  obtain ⟨W, e, hW, hx⟩ := exec_operands i s
  exact ⟨_, hx s (.refl s), ended_endCommand hW e s⟩

theorem engineStep_ended (hb : s.busy = true) : ∃ t, engineStep s = .next t ∧ Ended s t := by
  obtain ⟨W, e, hW, hx⟩ := engineStep_operands s
  exact ⟨_, hx s hb rfl (.refl s), ended_endCommand hW e s⟩

theorem Ended.flags {t : State} (h : Ended s t) : t.busy = false ∧ t.done = true ∧ t.wign = s.wign := by
  obtain ⟨⟨⟨hb, hd, _, hk⟩, _⟩ | ⟨_, ⟨hb, hd, _, hk⟩, _⟩, _⟩ := h <;> exact ⟨hb, hd, hk 3 le_rfl⟩

end Sys2Proof.Machine

/-! SUPPORT. The invariant, part by part, under each thing a step can do. -/

namespace Sys2Proof.Machine

variable {s t u : State} {W : State → State}

/-! ## The parts that an update does not touch -/

theorem StatusInv.congr (h : StatusInv s) (hst : t.status = s.status) (he : t.errcode = s.errcode) : StatusInv t := by
  simpa only [StatusInv, State.busy, State.done, State.err, State.wign, hst, he] using h

theorem ResultInv.congr (h : ResultInv s) (hr : t.result = s.result) (hd : t.digOut = s.digOut) : ResultInv t := by
  simpa only [ResultInv, hr, hd] using h

theorem OutInv.congr (h : OutInv s) (hl : t.outLen = s.outLen) (hb : t.outBuf = s.outBuf) : OutInv t := by
  simpa only [OutInv, hl, hb] using h

/-! ## STATUS and ERRCODE -/

theorem getLsbD_of_toNat_lt {b : Byte} {m k : Nat} (h : b.toNat < 2 ^ m) (hk : m ≤ k) : b.getLsbD k = false :=
  Nat.testBit_lt_two_pow (h.trans_le (Nat.pow_le_pow_right two_pos hk))

/-- BUSY shuts ERR out, and with it every error code. -/
theorem StatusInv.of_busy (h : StatusInv s) (hb : s.busy = true) : s.err = false ∧ s.errcode = 0 := by
  obtain ⟨_, hbd, hed, _, hec, _⟩ := h
  have hd : s.done = false := by simpa [hb] using hbd
  have he : s.err = false := by simpa [hd] using hed
  exact ⟨he, by simpa [he] using hec⟩

theorem statusInv_accept (c : Byte) (s : State) : StatusInv (acceptCommand c s) := by
  obtain ⟨hb, hd, he, hw⟩ := acceptCommand_flags c s
  have hres : statusAccepted.toNat < 2 ^ 4 := by decide
  exact ⟨fun _ hk => getLsbD_of_toNat_lt hres hk, by simp [hd], by simp [he], by simp [hw], by simp [he], by simp⟩

/-- An ignored write raises WIGN while BUSY = 1. -/
theorem StatusInv.wign (h : StatusInv s) (hb : s.busy = true) :
    StatusInv { s with status := statusWign s.status } := by
  obtain ⟨hres, hbd, hed, _, hec, hle⟩ := h
  have hbit (k : Nat) (hk : k ≠ 3) : (statusWign s.status).getLsbD k = s.status.getLsbD k := by
    rw [statusWign_bit, if_neg hk]
  have hb' : ({ s with status := statusWign s.status } : State).busy = s.busy := hbit 0 (by decide)
  have hd' : ({ s with status := statusWign s.status } : State).done = s.done := hbit 1 (by decide)
  have he' : ({ s with status := statusWign s.status } : State).err = s.err := hbit 2 (by decide)
  refine ⟨fun k hk => (hbit k (by omega)).trans (hres k hk), ?_, ?_, fun _ => .inl (hb'.trans hb), ?_, hle⟩
  · rwa [hb', hd']
  · rwa [he', hd']
  · rwa [he']

/-- A completion step turns BUSY into DONE, with ERR = 1 exactly where it leaves an error code. -/
theorem StatusInv.ended (h : StatusInv s) (hb : s.busy = true) (ht : Ended s t) : StatusInv t := by
  obtain ⟨herr, hcode⟩ := h.of_busy hb
  obtain ⟨hres, _⟩ := h
  obtain ⟨⟨⟨hb', hd', he', hk⟩, hc⟩ | ⟨e, ⟨hb', hd', he', hk⟩, hc⟩, _⟩ := ht
  · exact ⟨fun k hk4 => (hk k (by omega)).trans (hres k hk4), by simp [hb'], by simp [hd'], by simp [hd'],
      by simp [he', herr, hc, hcode], by simp [hc, hcode]⟩
  · refine ⟨fun k hk4 => (hk k (by omega)).trans (hres k hk4), by simp [hb'], by simp [hd'], by simp [hd'], ?_, ?_⟩
    · rw [hc, he']; cases e <;> decide
    · rw [hc]; cases e <;> decide

/-! ## RESULT and DIG_OUT -/

/-- A RESULT as commands write it: bits 7:6 are 0, VALID is CSUM_OK AND FOOTER_OK, and BCD_OK is as given. -/
def ResultBits (bcdOk : Bool) (v : Byte) : Prop :=
  v.toNat < 2 ^ 6 ∧ v.getLsbD 3 = (v.getLsbD 1 && v.getLsbD 2) ∧ v.getLsbD 4 = bcdOk

theorem resultBits_validate (ok : Bool) : ResultBits false (resultValidate ok) := by
  unfold ResultBits; revert ok; decide

theorem resultBits_unpack (ok : Bool) : ResultBits ok (resultUnpack ok) := by
  unfold ResultBits; revert ok; decide

theorem resultBits_format (il : Bool) : ResultBits false (resultFormat il) := by
  unfold ResultBits; revert il; decide

theorem resultBits_decode (il c f ok : Bool) : ResultBits ok (resultDecode il c f ok) := by
  unfold ResultBits; revert il c f ok; decide

/-- The invariant from the bits of RESULT and the digits. -/
theorem resultInv_of_bits {ok : Bool} (hv : ResultBits ok u.result) (hn : ∀ i, (h : i < 12) → u.digOut[i].toNat ≤ 15)
    (hd : ok = true → ∀ i, (h : i < 12) → u.digOut[i].toNat ≤ 9) : ResultInv u := by
  obtain ⟨hlt, hvalid, hbcd⟩ := hv
  exact ⟨fun _ hk => getLsbD_of_toNat_lt hlt hk, hvalid, hn, fun h4 => hd (hbcd.symm.trans h4)⟩

theorem setDigits_digit (ds : List Nibble) (s : State) (i : Nat) (h : i < 12) :
    (setDigits ds s).digOut[i].toNat = (ds.getD i 0).toNat := by
  have hz : (ds.map fun d => d.zeroExtend 8).getD i (0 : Byte) = (ds.getD i 0).zeroExtend 8 :=
    List.getD_map ds 0 fun d : Nibble => d.zeroExtend 8
  have hlt := (ds.getD i 0).isLt
  simp only [setDigits_digOut, fillBytes_getElem, hz, BitVec.truncate_eq_setWidth, BitVec.toNat_setWidth]
  omega

theorem getD_le_nine {ds : List Nibble} (h : digitsOk ds = true) (i : Nat) : (ds.getD i 0).toNat ≤ 9 := by
  rw [List.getD_eq_getElem?_getD]
  by_cases hl : i < ds.length
  · simpa [hl] using (digitsOk_iff ds).1 h i hl
  · simp [hl]

/-- The invariant after DIG_OUT was written with `ds`, BCD_OK promising no more than `ds` keeps. -/
theorem resultInv_of_digits {ok : Bool} (ds : List Nibble) (hv : ResultBits ok u.result)
    (hd : u.digOut = (setDigits ds u).digOut) (hok : ok = true → digitsOk ds = true) : ResultInv u := by
  have hdig (i : Nat) (hi : i < 12) : u.digOut[i].toNat = (ds.getD i 0).toNat := by
    rw [← setDigits_digit ds u i hi, ← hd]
  refine resultInv_of_bits hv (fun i hi => ?_) fun h i hi => ?_
  · rw [hdig i hi]
    exact Nat.le_of_lt_succ (ds.getD i 0).isLt
  · rw [hdig i hi]
    exact getD_le_nine (hok h) i

/-- Every command's writes keep RESULT and DIG_OUT fitting together. -/
theorem CommandWrites.resultInv (hW : CommandWrites W) (h : ResultInv s) : ResultInv (W s) := by
  cases hW with
  | none => exact h
  | verdict ok =>
    obtain ⟨_, _, hn, _⟩ := h
    exact resultInv_of_bits (resultBits_validate ok) hn nofun
  | out b _ => exact h.congr rfl rfl
  | unpack ds => exact resultInv_of_digits ds (resultBits_unpack _) rfl id
  | csum w => exact h.congr rfl rfl
  | image w b _ => exact h.congr rfl rfl
  | format il => exact resultInv_of_digits [] (resultBits_format il) rfl nofun
  | report il img =>
    exact resultInv_of_digits (blockDigits (imageBlock il img)) (resultBits_decode _ _ _ _) rfl id

/-! ## OUT_LEN and OUT_BUF -/

theorem outInv_setOut (b : List Byte) (h : b.length ≤ 64) (s : State) : OutInv (setOut b s) := by
  have hlen : (setOut b s).outLen.toNat = b.length := by
    rw [setOut_outLen, BitVec.toNat_ofNat, Nat.mod_eq_of_lt (by omega)]
  refine ⟨hlen.le.trans h, fun i hi hle => ?_⟩
  rw [hlen] at hle
  simp [hle]

/-- Every command's writes keep OUT_BUF clear from OUT_LEN on. -/
theorem CommandWrites.outInv (hW : CommandWrites W) (h : OutInv s) : OutInv (W s) := by
  cases hW with
  | none => exact h
  | verdict ok => exact h.congr rfl rfl
  | out b hb => exact outInv_setOut b hb s
  | unpack ds => exact h.congr rfl rfl
  | csum w => exact h.congr rfl rfl
  | image w b hb => exact (outInv_setOut b hb s).congr rfl rfl
  | format il => exact h.congr rfl rfl
  | report il img => exact h.congr rfl rfl

/-! ## What a step can do -/

theorem endCommand_results (e : Option CmdError) (u : State) :
    (endCommand e u).result = u.result ∧ (endCommand e u).digOut = u.digOut ∧
      (endCommand e u).outLen = u.outLen ∧ (endCommand e u).outBuf = u.outBuf := by
  cases e <;> exact ⟨rfl, rfl, rfl, rfl⟩

theorem inv_engineStep (h : Inv s) (hx : engineStep s = .next t) : Inv t := by
  cases hb : s.busy with
  | false =>
    obtain rfl : s = t := by simpa [engineStep, hb] using hx
    exact h
  | true =>
    obtain ⟨hst, hres, hout, hvars⟩ := h
    obtain ⟨W, e, hW, hrun⟩ := engineStep_operands s
    obtain rfl : endCommand e (W s) = t := by simpa [hrun s hb rfl (.refl s)] using hx
    have hend := ended_endCommand hW e s
    obtain ⟨_, _, _, _, hhost, _⟩ := id hend
    obtain ⟨hr, hd, hl, hbuf⟩ := endCommand_results e (W s)
    exact ⟨hst.ended hb hend, (hW.resultInv hres).congr hr hd, (hW.outInv hout).congr hl hbuf, by rwa [HostInv, hhost]⟩

theorem inv_memWrite (a v : Byte) (h : Inv s) : Inv (memWrite a v s) := by
  obtain ⟨hst, hres, hout, hvars⟩ := h
  rcases memWrite_cases a v s with ⟨hb, hw⟩ | ⟨_, _, hw⟩ | ⟨_, _, hw⟩ | ⟨_, hw⟩ <;> rw [hw]
  · exact ⟨hst.wign hb, hres, hout, hvars⟩
  · exact ⟨statusInv_accept v s, hres, hout, hvars⟩
  · obtain ⟨_, hs, he, hr, hl, hd, hb, _, _, hh, _⟩ := writeLoc_fields (locate a) v s
    exact ⟨hst.congr hs he, hres.congr hr hd, hout.congr hl hb, by rwa [HostInv, hh]⟩
  · exact ⟨hst, hres, hout, hvars⟩

theorem inv_codecReset (h : HostInv s) : Inv (codecReset s) := by
  refine ⟨⟨?_, ?_, ?_, ?_, ?_, ?_⟩, ⟨?_, ?_, ?_, ?_⟩, ⟨?_, ?_⟩, h⟩ <;>
    simp [State.busy, State.done, State.err, State.wign]

theorem inv_busCycle (p : Ports) (h : Inv s) : Inv (busCycle p s) := by
  cases hr : p.rst with
  | true =>
    obtain ⟨_, _, _, hvars⟩ := h
    rw [busCycle_rst p s hr]
    exact inv_codecReset hvars
  | false =>
    obtain ⟨r, d, hc⟩ := busCycle_cases p s hr
    rw [hc]
    split
    · exact inv_memWrite p.addr p.wdata h
    · exact h

theorem inv_hostStep (h : Inv s) (hx : hostStep s = .next t) : Inv t := by
  rcases hostStep_cases s with ⟨u, g, hu, hcodec, hvars⟩ | ⟨f, hf⟩
  · obtain rfl : ({ u with host := g } : State) = t := by simpa [hu] using hx
    have hu : Inv u := by
      rcases hcodec with rfl | ⟨p, _, rfl⟩
      · exact h
      · exact inv_busCycle p h
    obtain ⟨_, _, _, hs⟩ := h
    obtain ⟨hst, hres, hout, _⟩ := hu
    refine ⟨hst, hres, hout, ?_⟩
    show g.vars.Pairwise fun a b => a.1 < b.1
    rcases hvars with hv | ⟨x, v, hv⟩ <;> rw [hv]
    · exact hs
    · exact setHostVar_pairwise x v _ hs
  · simp [hf] at hx

/-- Settles O38: taking a turn from the list touches no part of the invariant, and then the step is a completion step, a
host step or a bus cycle, each of which keeps it. -/
theorem everyStepKeepsTheInvariant : Obligations.EveryStepKeepsTheInvariant := by
  unfold Obligations.EveryStepKeepsTheInvariant
  intro s t h hx
  obtain ⟨rest, hstep⟩ := step_cases s
  have hr : Inv { s with turns := rest } := h
  rcases hstep with he | hh | ⟨p, _, hp⟩
  · exact inv_engineStep hr (he ▸ hx)
  · exact inv_hostStep hr (hh ▸ hx)
  · obtain rfl : busCycle p { s with turns := rest } = t := by simpa [hp] using hx
    exact inv_busCycle p hr

end Sys2Proof.Machine

/-! SUPPORT. The register map, the engine in motion and the freeze of its inputs: the remaining statements of
10_state.md. -/

namespace Sys2Proof.Machine

variable {s t : State}

/-! ## Cycles of the bus while a command is in flight -/

/-- Two states differ at most in WIGN and in what stands outside the codec's registers: the read data and the draws. -/
def SameButWign (s t : State) : Prop :=
  (∃ st r d, t = { s with status := st, rdata := r, draws := d }) ∧
    ∀ k, k ≠ 3 → t.status.getLsbD k = s.status.getLsbD k

theorem SameButWign.refl (s : State) : SameButWign s s := ⟨⟨s.status, s.rdata, s.draws, rfl⟩, fun _ _ => rfl⟩

theorem SameButWign.trans {u : State} (h : SameButWign s t) (h' : SameButWign t u) : SameButWign s u := by
  obtain ⟨⟨_, _, _, rfl⟩, hk⟩ := h
  obtain ⟨⟨st, r, d, rfl⟩, hk'⟩ := h'
  exact ⟨⟨st, r, d, rfl⟩, fun k h3 => (hk' k h3).trans (hk k h3)⟩

theorem SameButWign.bits (h : SameButWign s t) (k : Nat) (hk : k ≠ 3) : t.status.getLsbD k = s.status.getLsbD k :=
  h.2 k hk

theorem SameButWign.busy (h : SameButWign s t) : t.busy = s.busy := h.bits 0 (by decide)

theorem SameButWign.turns (h : SameButWign s t) : t.turns = s.turns := by
  obtain ⟨⟨_, _, _, rfl⟩, _⟩ := h
  rfl

theorem SameButWign.frame (h : SameButWign s t) : SameExcept (fun n => n = 0x01) s t := by
  obtain ⟨⟨_, _, _, rfl⟩, _⟩ := h
  exact sameExcept_of_readLoc fun l _ hP => by cases l <;> simp_all [readLoc, locAddr]

/-- 10_state.md R42: a cycle without reset can do no more to a command in flight than raise WIGN. -/
theorem busCycle_sameButWign (p : Ports) (hr : p.rst = false) (hb : s.busy = true) : SameButWign s (busCycle p s) := by
  obtain ⟨r, d, hc⟩ := busCycle_cases p s hr
  rw [hc]
  split
  · rw [memWrite_busy hb]
    exact ⟨⟨_, r, d, rfl⟩, fun k hk => by simp [statusWign_bit, hk]⟩
  · exact ⟨⟨_, r, d, rfl⟩, fun _ _ => rfl⟩

theorem busCycles_sameButWign (ps : List Ports) (hr : ∀ p ∈ ps, p.rst = false) (hb : s.busy = true) :
    SameButWign s (ps.foldl (fun u p => busCycle p u) s) := by
  induction ps generalizing s with
  | nil => exact .refl s
  | cons p ps ih =>
    obtain ⟨hp, hps⟩ := List.forall_mem_cons.1 hr
    have h := busCycle_sameButWign p hp hb
    exact h.trans (ih hps (h.busy.trans hb))

/-- Settles O39: the cycles leave CMD and the operands as they were, so the completion step makes the same writes and
ends the same way, and a difference in WIGN stays in WIGN. -/
theorem inputsAreFrozenWhileBusy : Obligations.InputsAreFrozenWhileBusy := by
  unfold Obligations.InputsAreFrozenWhileBusy
  intro s ps hb hr
  have h := busCycles_sameButWign ps hr hb
  generalize ps.foldl (fun u p => busCycle p u) s = s' at h
  obtain ⟨W, e, hW, hrun⟩ := engineStep_operands s
  have hrun' : engineStep s' = .next (endCommand e (W s')) := by
    obtain ⟨⟨_, _, _, rfl⟩, _⟩ := id h
    exact hrun _ (h.busy.trans hb) rfl ⟨rfl, rfl, rfl, rfl⟩
  refine ⟨_, _, hrun s hb rfl (.refl s), hrun', endCommand_congr e (hW.congr h.frame), fun k hk => ?_⟩
  obtain ⟨hst, _⟩ := hW.keeps s
  obtain ⟨hst', _⟩ := hW.keeps s'
  exact endCommand_bit_congr e (by rw [hst', hst, h.bits k hk])

/-! ## What every command does -/

/-- Settles O11: a completion step ends one way or the other, and its frame leaves out CMD and the input registers. -/
theorem everyCommandCompletesKeepingInputs : Obligations.EveryCommandCompletesKeepingInputs := by
  unfold Obligations.EveryCommandCompletesKeepingInputs
  intro i s
  obtain ⟨t, hx, hend⟩ := exec_ended i s
  obtain ⟨_, hframe, hout⟩ := id hend
  obtain ⟨hb, hd, hw⟩ := hend.flags
  refine ⟨t, hx, hb, hd, hw, hframe 0 ?_, fun a ha => hframe a ?_, hout⟩
  · simp [StatusRegs, ResultRegs, ReportRegs, CsumRegs, OutRegs]
  · unfold InputRegs at ha
    simp only [StatusRegs, ResultRegs, ReportRegs, CsumRegs, OutRegs]
    omega

/-- The operands of a command are the bytes of the registers it may read (93_implementation_defined.md I8). -/
theorem sameOperands_of_readRegs {s s' : State} (h : ∀ a : Byte, ReadRegs s a.toNat → memRead a s' = memRead a s) :
    SameOperands s s' := by
  have hser : s'.serLen = s.serLen := h 0x04#8 (.inl rfl)
  have hin : s'.inLen = s.inLen := h 0x05#8 (.inr (.inl rfl))
  have haddr (base i : Nat) (hlt : base + i < 256) : (addrAt base i).toNat = base + i := by
    simp [addrAt, hlt]
  have hchar (i : Nat) (hi : i < 12) (hl : i < s.serLen.toNat) : s'.serChar[i] = s.serChar[i] := by
    rw [← memRead_serChar s' i hi, ← memRead_serChar s i hi]
    refine h _ (.inr (.inr (.inl ?_)))
    rw [haddr 0x10 i (by omega), regAt_serLen]
    omega
  have hbuf (i : Nat) (hi : i < 64) (hl : i < s.inLen.toNat) : s'.inBuf[i] = s.inBuf[i] := by
    rw [← memRead_inBuf s' i hi, ← memRead_inBuf s i hi]
    refine h _ (.inr (.inr (.inr ?_)))
    rw [haddr 0x40 i (by omega), regAt_inLen]
    omega
  refine ⟨hser, hin, List.ext_getElem ?_ fun i h1 h2 => ?_, List.ext_getElem ?_ fun i h1 h2 => ?_⟩
  · simp [serialChars, hser]
  · simp only [serialChars, List.length_take, Vector.length_toList, lt_min_iff] at h2
    simpa [serialChars] using hchar i h2.2 h2.1
  · simp [inputBytes, hin]
  · simp only [inputBytes, List.length_take, Vector.length_toList, lt_min_iff] at h2
    simpa [inputBytes] using hbuf i h2.2 h2.1

/-- Settles O12: on the same operands a command makes the same writes, whose values do not depend on the state, and ends
with the same error or none. -/
theorem resultsDependOnInputsOnly : Obligations.ResultsDependOnInputsOnly := by
  unfold Obligations.ResultsDependOnInputsOnly
  intro i s s' t t' hread herr herr' hx hx'
  obtain ⟨W, e, hW, hrun⟩ := exec_operands i s
  obtain rfl : endCommand e (W s) = t := by simpa [hrun s (.refl s)] using hx
  obtain rfl : endCommand e (W s') = t' := by simpa [hrun s' (sameOperands_of_readRegs hread)] using hx'
  obtain ⟨hst, hcode, _⟩ := hW.keeps s
  obtain ⟨hst', _, _⟩ := hW.keeps s'
  refine ⟨?_, fun h => ?_, fun a ha => ?_⟩
  · refine endCommand_bit_congr e (k := 2) ?_
    rw [hst, hst']
    exact herr'.trans herr.symm
  · cases e with
    | none =>
      obtain ⟨⟨_, _, hno, _⟩, _⟩ := endsOk_completeCmd hst hcode
      exact absurd (hno.symm.trans h) (by simp [herr])
    | some c => rfl
  · have hns : ¬ StatusRegs a.toNat := by
      simp only [StatusRegs, ResultRegs, ReportRegs, CsumRegs, OutRegs] at ha ⊢
      omega
    rw [endCommand_frame e _ a hns, endCommand_frame e _ a hns]
    exact hW.alike s s' a

/-! ## The step in which the engine moves -/

theorem step_unscheduled (ht : s.turns = []) (hb : s.busy = true) : step s = engineStep s := by
  simp [step, ht, hb]

theorem step_engine {rest : List Turn} (ht : s.turns = .engine :: rest) :
    step s = engineStep { s with turns := rest } := by
  simp [step, ht]

theorem engineStep_decoded {i : Instr} (hb : s.busy = true) (hd : decodeByte s.cmd = .ok i) :
    engineStep s = exec i s := by
  simp [engineStep, hb, hd]

theorem decodeByte_encode (i : Instr) : decodeByte (encode i) = .ok i := by
  cases i <;> decide

/-- Settles O10: the step is the engine's, and the engine decodes CMD; the byte `withFetchWord` accepts decodes to its
command. -/
theorem stepRunsTheDecodedCommand : Obligations.StepRunsTheDecodedCommand := by
  unfold Obligations.StepRunsTheDecodedCommand
  refine ⟨fun s i rest hb hd => ⟨fun ht => ?_, fun ht => ?_⟩, fun s i => ?_⟩
  · exact (step_unscheduled ht hb).trans (engineStep_decoded hb hd)
  · exact (step_engine ht).trans (engineStep_decoded hb hd)
  · have hbyte : BitVec.ofNat 8 (encode i).toNat = encode i := by simp
    have hs : step (s.withFetchWord 8 (encode i).toNat) = engineStep (acceptCommand (encode i) s) := by
      rw [step_engine rfl, State.withFetchWord, hbyte]
      rfl
    exact hs.trans (engineStep_decoded (acceptCommand_flags (encode i) s).1 (decodeByte_encode i))

/-! ## An accepted command completes -/

theorem core_run_succ (k : Nat) (h : step s = .next t) : core.run (k + 1) s = core.run k t := by
  have hcore : core.step s = .next t := h
  simp only [Host.Core.run, hcore]

theorem core_run_fault {f : Fault} (h : step s = .fault f) : core.run 1 s = .fault f := by
  have hcore : core.step s = .fault f := h
  simp only [Host.Core.run, hcore]

/-- With a command in flight, a host step stops the run or leaves the command in flight and the turns as they were. -/
theorem hostStep_busy (hb : s.busy = true) :
    (∃ f, hostStep s = .fault f) ∨ ∃ t, hostStep s = .next t ∧ t.turns = s.turns ∧ t.busy = true := by
  rcases hostStep_cases s with ⟨u, g, hx, hcodec, _⟩ | hf
  · have hu : SameButWign s u := by
      rcases hcodec with rfl | ⟨p, hp, rfl⟩
      · exact .refl u
      · exact busCycle_sameButWign p hp hb
    exact .inr ⟨_, hx, hu.turns, hu.busy.trans hb⟩
  · exact .inl hf

/-- With a command in flight, each step completes it, or is the host's fault, or takes a turn without reset and leaves
the command in flight. -/
theorem step_busy (hb : s.busy = true) (hr : ∀ p, Turn.cycle p ∈ s.turns → p.rst = false) :
    (∃ t, step s = .next t ∧ t.busy = false ∧ t.done = true) ∨ (∃ f, step s = .fault f) ∨
      ∃ t, step s = .next t ∧ t.busy = true ∧ ∃ x, s.turns = x :: t.turns := by
  have hengine (u : State) (hu : u.busy = true) : ∃ t, engineStep u = .next t ∧ t.busy = false ∧ t.done = true := by
    obtain ⟨t, hx, hend⟩ := engineStep_ended hu
    obtain ⟨hbt, hdt, _⟩ := hend.flags
    exact ⟨t, hx, hbt, hdt⟩
  cases ht : s.turns with
  | nil => exact .inl (step_unscheduled ht hb ▸ hengine s hb)
  | cons x rest =>
    have hbr : ({ s with turns := rest } : State).busy = true := hb
    cases x with
    | engine => exact .inl (step_engine ht ▸ hengine _ hbr)
    | host =>
      have hstep : step s = hostStep { s with turns := rest } := by simp [step, ht]
      rcases hostStep_busy hbr with ⟨f, hf⟩ | ⟨t, hx, htl, hbt⟩
      · exact .inr (.inl ⟨f, hstep.trans hf⟩)
      · exact .inr (.inr ⟨t, hstep.trans hx, hbt, .host, by rw [htl]⟩)
    | cycle p =>
      have hsame := busCycle_sameButWign p (hr p (by simp [ht])) hbr
      exact .inr (.inr ⟨_, by simp [step, ht], hsame.busy.trans hb, .cycle p, by rw [hsame.turns]⟩)

/-- Settles O40, by induction on the turns to come. -/
theorem acceptedCommandsEventuallyComplete : Obligations.AcceptedCommandsEventuallyComplete := by
  unfold Obligations.AcceptedCommandsEventuallyComplete
  intro s hb hr
  induction hn : s.turns.length using Nat.strong_induction_on generalizing s with
  | _ n ih =>
    rcases step_busy hb hr with ⟨t, hx, hdone⟩ | ⟨f, hf⟩ | ⟨t, hx, hbt, x, htl⟩
    · exact ⟨1, by omega, .inl ⟨t, core_run_succ 0 hx, hdone⟩⟩
    · exact ⟨1, by omega, .inr ⟨f, core_run_fault hf⟩⟩
    · have hlen : t.turns.length < n := by simp [← hn, htl]
      obtain ⟨k, hk, hend⟩ := ih _ hlen t hbt (fun p hp => hr p (by simp [htl, hp])) rfl
      exact ⟨k + 1, by omega, by rwa [core_run_succ k hx]⟩

/-! ## The register map -/

/-- Settles O1, location by location. -/
theorem everyRegisterIsReadAtItsAddress : Obligations.EveryRegisterIsReadAtItsAddress := by
  unfold Obligations.EveryRegisterIsReadAtItsAddress
  intro s
  exact ⟨memRead_cmd s, memRead_status s, memRead_errcode s, memRead_result s, memRead_serLen s, memRead_inLen s,
    memRead_outLen s, memRead_csumLo s, memRead_csumHi s, memRead_storedLo s, memRead_storedHi s,
    fun i h => ⟨memRead_serChar s i h, memRead_digOut s i h⟩, memRead_footerOut s,
    fun i h => ⟨memRead_inBuf s i h, memRead_outBuf s i h⟩⟩

theorem ReservedRegs.not_writable {n : Nat} (h : ReservedRegs n) : n ≠ 0 ∧ ¬ InputRegs n := by
  unfold ReservedRegs at h
  unfold InputRegs
  omega

/-- Settles O2: a reserved address is neither CMD's nor an input register's. -/
theorem reservedAddressesReadZeroIgnoreWrites : Obligations.ReservedAddressesReadZeroIgnoreWrites := by
  unfold Obligations.ReservedAddressesReadZeroIgnoreWrites
  intro s a v ha
  obtain ⟨h0, hin⟩ := ha.not_writable
  refine ⟨memRead_reserved s a ha, fun hb => memWrite_other hb (fun h => h0 (by simp [h])) hin v, fun hb => ?_⟩
  have hout := memWrite_outside a v s
  rw [memWrite_busy hb] at hout ⊢
  exact ⟨by simp [State.wign, statusWign_bit], fun k hk => by simp [statusWign_bit, hk], wign_frame s, hout⟩

end Sys2Proof.Machine

/-! SUPPORT. The host bus and the synchronisation rule: the statements of 20_memory.md. -/

namespace Sys2Proof.Machine

variable {s t : State}

/-! ## What a host write changes -/

/-- 20_memory.md R62 while BUSY = 1: WIGN rises, and no other bit of the codec changes. -/
theorem memWrite_busy_effect (hb : s.busy = true) (a v : Byte) :
    (memWrite a v s).wign = true ∧ (∀ k, k ≠ 3 → (memWrite a v s).status.getLsbD k = s.status.getLsbD k) ∧
      SameExcept (fun n => n = 0x01) s (memWrite a v s) := by
  rw [memWrite_busy hb]
  exact ⟨by simp [State.wign, statusWign_bit], fun k hk => by simp [statusWign_bit, hk], wign_frame s⟩

/-- 20_memory.md R62 while BUSY = 0, at an input register: a store there. -/
theorem memWrite_input_effect (hb : s.busy = false) {a : Byte} (ha : InputRegs a.toNat) (v : Byte) :
    memRead a (memWrite a v s) = v ∧ SameExcept (fun n => n = a.toNat) s (memWrite a v s) := by
  rw [memWrite_input hb ha]
  exact writeLoc_input a v s ha

/-- An idle codec keeps every byte but its input registers under a write to any address but CMD's. -/
theorem memWrite_idle_frame (hb : s.busy = false) {a : Byte} (h0 : a ≠ 0) (v : Byte) :
    SameExcept InputRegs s (memWrite a v s) := by
  by_cases ha : InputRegs a.toNat
  · obtain ⟨_, hframe⟩ := memWrite_input_effect hb ha v
    exact hframe.mono fun _ hn => hn ▸ ha
  · rw [memWrite_other hb h0 ha]
    exact .refl _ s

/-! ## Cycles of the bus -/

/-- The read data and the draws are no part of the register space: setting them changes no byte. -/
theorem sameExcept_ports (P : Nat → Prop) (s : State) (r : Option Byte) (d : Nat) :
    SameExcept P s { s with rdata := r, draws := d } :=
  fun a _ => memRead_outside a s r d s.turns s.host

/-- Settles O3: a read cycle sets the read data port and no other field. -/
theorem readsReturnTheByteChangeNothing : Obligations.ReadsReturnTheByteChangeNothing := by
  unfold Obligations.ReadsReturnTheByteChangeNothing
  intro s a
  rw [busCycle_read]
  exact ⟨rfl, fun ha => congrArg some (memRead_reserved s a ha), sameExcept_ports _ s _ s.draws, rfl, rfl, rfl⟩

/-- Settles O4, by the four cases of R62. -/
theorem hostWriteEffects : Obligations.HostWriteEffects := by
  unfold Obligations.HostWriteEffects
  intro s a v
  refine ⟨fun hb => ?_, fun hb h0 => ?_, fun hb ha => memWrite_input_effect hb ha v,
    fun hb h0 ha => memWrite_other hb h0 ha v, memWrite_outside a v s⟩
  · obtain ⟨hw, hbits, hframe⟩ := memWrite_busy_effect hb a v
    exact ⟨hw, hbits, hframe, fun b => by rw [busCycle_read]⟩
  · subst h0
    rw [memWrite_accept hb]
    exact ⟨memRead_cmd _, memRead_status _, memRead_errcode _, acceptCommand_frame v s⟩

/-- Settles O5: the write is that of R62, after which the cycle sets the read data to the draw and counts it. -/
theorem writeAndReadTogetherWritesAndReadsAnyValue : Obligations.WriteAndReadTogetherWritesAndReadsAnyValue := by
  unfold Obligations.WriteAndReadTogetherWritesAndReadsAnyValue
  intro s a v
  exact ⟨sameExcept_ports _ (memWrite a v s) _ _, rfl, rfl⟩

/-! ## The platform's window -/

/-- Settles O6: an address is in the window exactly when its offset from CODEC_BASE is a byte. -/
theorem windowReachesEachRegisterOnce : Obligations.WindowReachesEachRegisterOnce := by
  unfold Obligations.WindowReachesEachRegisterOnce
  refine ⟨fun a => ?_, fun n hn => ?_⟩
  · have hlt := a.isLt
    rw [windowAddr, if_pos (by omega), Nat.add_sub_cancel_left, BitVec.ofNat_toNat, BitVec.setWidth_eq]
  · rw [windowAddr, if_neg (by omega)]

/-! ## Results stay -/

/-- STATUS is no input register, so a frame around the input registers keeps BUSY. -/
theorem SameExcept.busy_of_inputs (h : SameExcept InputRegs s t) : t.busy = s.busy := by
  have hst : t.status = s.status := h 0x01#8 (by simp [InputRegs])
  rw [State.busy, State.busy, hst]

/-- A cycle without reset and without a write to CMD changes input registers only, from an idle state. -/
theorem busCycle_idle_frame (p : Ports) (hb : s.busy = false) (hr : p.rst = false) (hp : p.we = true → p.addr ≠ 0) :
    SameExcept InputRegs s (busCycle p s) := by
  obtain ⟨r, d, hc⟩ := busCycle_cases p s hr
  rw [hc]
  refine SameExcept.trans ?_ (sameExcept_ports _ _ r d)
  split
  · next hwe => exact memWrite_idle_frame hb (hp hwe) p.wdata
  · exact .refl _ s

/-- Settles O41, by induction on the cycles: each keeps every byte but the input registers, BUSY = 0 among them, so the
next one starts idle too. -/
theorem resultsStayUntilTheNextCommand : Obligations.ResultsStayUntilTheNextCommand := by
  unfold Obligations.ResultsStayUntilTheNextCommand
  intro s ps hb hps
  induction ps generalizing s with
  | nil => exact .refl _ s
  | cons p ps ih =>
    obtain ⟨⟨hr, hp⟩, hrest⟩ := List.forall_mem_cons.1 hps
    have h := busCycle_idle_frame p hb hr hp
    exact h.trans (ih _ (h.busy_of_inputs.trans hb) hrest)

end Sys2Proof.Machine

/-! SUPPORT. The command encoding: the statements of 30_encoding.md on command bytes (R82 to R85). -/

namespace Sys2Proof.Machine

/-! ## Decode and encode -/

/-- A command byte is its fields put together, most significant first (30_encoding.md R80). -/
theorem cmdFields_append (c : Byte) :
    BitVec.ofBool (cmdFields c).emu ++ (cmdFields c).rsv ++ (cmdFields c).op = c := by
  revert c; decide

/-- The opcode map and R82's check of EMU pass no fields but those of the command's row. -/
theorem fields_of_dispatchOp {op : BitVec 4} {emu : Bool} {i : Instr} (h : dispatchOp op emu = some i)
    (hemu : ¬ (emu = true ∧ op ≠ 7)) : i.fields = ⟨emu, 0, op⟩ := by
  cases i <;> revert op emu <;> decide

/-- A byte that decodes to a command has the fields of that command's row. -/
theorem cmdFields_of_decodeByte {c : Byte} {i : Instr} (h : decodeByte c = .ok i) : cmdFields c = i.fields := by
  simp only [decodeByte] at h
  split at h
  · cases h
  · next hrsv =>
    split at h
    · cases h
    · next j hj =>
      split at h
      · cases h
      · next hemu =>
        cases h
        rw [fields_of_dispatchOp hj hemu, ← not_not.1 hrsv]

theorem cmdFields_encode (i : Instr) : cmdFields (encode i) = i.fields :=
  cmdFields_of_decodeByte (decodeByte_encode i)

theorem decodeByte_eq_ok_iff (i : Instr) (c : Byte) : decodeByte c = .ok i ↔ c = encode i := by
  refine ⟨fun h => ?_, fun h => h ▸ decodeByte_encode i⟩
  rw [← cmdFields_append c, cmdFields_of_decodeByte h, ← cmdFields_encode, cmdFields_append]

/-- Settles O7: each pattern of the table is what the encoder gives for its row. -/
theorem tableBytesDecode : Obligations.TableBytesDecode := by
  unfold Obligations.TableBytesDecode
  exact ⟨decodeByte_encode .validate, decodeByte_encode .bcdpack, decodeByte_encode .bcdunpack,
    decodeByte_encode .csum, decodeByte_encode .ilv, decodeByte_encode .dilv, decodeByte_encode .encodePlain,
    decodeByte_encode .encodeEmu, decodeByte_encode .decode⟩

/-- Settles O8: the decoder fixes all three fields of a byte that it accepts, and the fields fix the byte. -/
theorem decodeIsTheInverseOfEncode : Obligations.DecodeIsTheInverseOfEncode := by
  unfold Obligations.DecodeIsTheInverseOfEncode
  exact decodeByte_eq_ok_iff

/-! ## Illegal command bytes -/

/-- The commands, in the order of the opcode table's rows (30_encoding.md R84). -/
def commandRows : List Instr :=
  [.validate, .bcdpack, .bcdunpack, .csum, .ilv, .dilv, .encodePlain, .encodeEmu, .decode]

theorem mem_commandRows (i : Instr) : i ∈ commandRows := by
  cases i <;> decide

/-- The legal bytes are the nine that encode a row of the table. -/
theorem decodeByte_ok_iff_mem (c : Byte) :
    (∃ i, decodeByte c = .ok i) ↔ c.toNat ∈ [0x01, 0x02, 0x03, 0x04, 0x05, 0x06, 0x07, 0x87, 0x08] := by
  have hrows : [0x01, 0x02, 0x03, 0x04, 0x05, 0x06, 0x07, 0x87, 0x08] =
      commandRows.map fun i => (encode i).toNat := rfl
  rw [hrows, List.mem_map]
  refine exists_congr fun i => ?_
  rw [decodeByte_eq_ok_iff, BitVec.toNat_inj, eq_comm]
  exact (and_iff_right (mem_commandRows i)).symm

/-- 30_encoding.md R83: a byte in flight that decodes to no command raises ILLEGAL_CMD. -/
theorem engineStep_illegal {s : State} (hb : s.busy = true) (h : ¬ ∃ i, decodeByte s.cmd = .ok i) :
    engineStep s = .next (raiseCmdError .illegalCmd s) := by
  rcases engineStep_cases s with ⟨hidle, _⟩ | ⟨_, i, hi, _⟩ | ⟨_, _, hx⟩
  · simp [hb] at hidle
  · exact absurd ⟨i, hi⟩ h
  · exact hx

/-- Settles O9: a byte is legal when it is some command's; any other is accepted as every byte is, and with it in CMD
the completion step raises ILLEGAL_CMD. -/
theorem illegalBytesAcceptedThenIllegalCmd : Obligations.IllegalBytesAcceptedThenIllegalCmd := by
  unfold Obligations.IllegalBytesAcceptedThenIllegalCmd
  refine fun c => ⟨decodeByte_ok_iff_mem c, fun hc s => ⟨fun hb => ?_, fun hb hcmd => ?_⟩⟩
  · obtain ⟨hbusy, _⟩ := acceptCommand_flags c s
    rw [memWrite_accept hb]
    exact ⟨hbusy, memRead_cmd _⟩
  · subst hcmd
    exact ⟨_, engineStep_illegal hb (mt (decodeByte_ok_iff_mem s.cmd).1 hc), refusedWith_raise .illegalCmd s⟩

end Sys2Proof.Machine

/-! SUPPORT. The statements of the host assembly, one at a time (30_encoding.md R87). -/

namespace Sys2Proof.Machine

variable {s t : State}

/-! ## One statement is one host step -/

theorem hostStep_at {st : HostStmt} (h : s.host.prog[s.host.pos]? = some st) : hostStep s = hostExec st s := by
  simp [hostStep, h]

theorem busByte_of_lt {n : Nat} (h : n < 256) : busByte n = some (BitVec.ofNat 8 n) := if_pos h

theorem busByte_of_ge {n : Nat} (h : 256 ≤ n) : busByte n = none := if_neg (not_lt.2 h)

/-- `wr` in range: the write cycle, and on to the next statement. -/
theorem hostWr_next {a v : HostExpr} (ha : evalExpr s.host.vars a < 256) (hv : evalExpr s.host.vars v < 256) :
    hostWr a v s = .next (hostNext (busCycle
      (writePorts (BitVec.ofNat 8 (evalExpr s.host.vars a)) (BitVec.ofNat 8 (evalExpr s.host.vars v))) s)) := by
  simp [hostWr, busByte_of_lt ha, busByte_of_lt hv]

theorem hostWr_fault {a v : HostExpr} (h : 256 ≤ evalExpr s.host.vars a ∨ 256 ≤ evalExpr s.host.vars v) :
    hostWr a v s = .fault .hostOperandRange := by
  rcases h with h | h <;> simp [hostWr, busByte_of_ge h]

/-- `rd` in range: the read cycle, its byte to the variable, and on to the next statement. -/
theorem hostRd_next {a : HostExpr} (x : HostVar) (ha : evalExpr s.host.vars a < 256) :
    hostRd a x s = .next (hostNext (hostAssign x (regAt (evalExpr s.host.vars a) s)
      (busCycle (readPorts (BitVec.ofNat 8 (evalExpr s.host.vars a))) s))) := by
  simp [hostRd, busByte_of_lt ha, regAt]

theorem hostRd_fault {a : HostExpr} (x : HostVar) (h : 256 ≤ evalExpr s.host.vars a) :
    hostRd a x s = .fault .hostOperandRange := by
  simp [hostRd, busByte_of_ge h]

/-- The host, the read data, the turns and the draws are no part of the register space. -/
theorem sameExcept_outside (P : Nat → Prop) (s : State) (r : Option Byte) (d : Nat) (ts : List Turn) (h : HostSide) :
    SameExcept P s { s with rdata := r, draws := d, turns := ts, host := h } :=
  fun a _ => memRead_outside a s r d ts h

/-- An assignment sets its variable and no other. -/
theorem hostVar_hostAssign (x : HostVar) (v : Nat) (s : State) :
    hostVar (hostNext (hostAssign x v s)).host.vars x = v ∧
      ∀ y, y ≠ x → hostVar (hostNext (hostAssign x v s)).host.vars y = hostVar s.host.vars y :=
  ⟨by simp [hostVar_setHostVar], fun y hy => by simp [hostVar_setHostVar, hy]⟩

/-- Settles O42: `wr` and `rd` in range are one cycle of the bus with the host moved on, and out of range have no bus
byte. -/
theorem hostStatementsAreOneTransaction : Obligations.HostStatementsAreOneTransaction := by
  unfold Obligations.HostStatementsAreOneTransaction
  refine fun s a v x => ⟨fun hst => ?_, fun hst => ?_⟩
  · refine ⟨fun ha hv => ?_, fun h => (hostStep_at hst).trans (hostWr_fault h)⟩
    obtain ⟨_, hturns, hhost, _⟩ :=
      memWrite_outside (BitVec.ofNat 8 (evalExpr s.host.vars a)) (BitVec.ofNat 8 (evalExpr s.host.vars v)) s
    refine ⟨_, (hostStep_at hst).trans (hostWr_next ha hv), sameExcept_outside _ _ _ _ _ _, hturns, ?_⟩
    simp [hhost]
  · refine ⟨fun ha => ?_, fun h => (hostStep_at hst).trans (hostRd_fault x h)⟩
    obtain ⟨hx, hy⟩ := hostVar_hostAssign x (regAt (evalExpr s.host.vars a) s)
      (busCycle (readPorts (BitVec.ofNat 8 (evalExpr s.host.vars a))) s)
    exact ⟨_, (hostStep_at hst).trans (hostRd_next x ha), sameExcept_outside _ _ _ _ _ _, rfl, rfl, rfl, hx, hy⟩

/-! ## Jumps -/

theorem mem_labelIndexes (prog : List HostStmt) (l : Label) (k : Nat) :
    k ∈ labelIndexes prog l ↔ prog[k]? = some (.label l) := by
  simp [labelIndexes, List.mem_filterMap, List.mem_zipIdx_iff_getElem?]

theorem labelIndexes_nodup (prog : List HostStmt) (l : Label) : (labelIndexes prog l).Nodup := by
  refine List.Nodup.filterMap (fun sk sk' k hk hk' => ?_) (List.nodup_zipIdx_map_snd prog).of_map
  simp only [Option.mem_def, Option.ite_none_right_eq_some, Option.some.injEq] at hk hk'
  obtain ⟨hst, hidx⟩ := hk
  obtain ⟨hst', hidx'⟩ := hk'
  exact Prod.ext (hst.trans hst'.symm) (hidx.trans hidx'.symm)

/-- A label is defined once, at `k`, when `k` is the one index it is found at. -/
theorem labelIndexes_eq_singleton_iff (prog : List HostStmt) (l : Label) (k : Nat) :
    labelIndexes prog l = [k] ↔ ∀ j : Nat, prog[j]? = some (HostStmt.label l) ↔ j = k := by
  rw [← List.perm_singleton, List.perm_ext_iff_of_nodup (labelIndexes_nodup prog l) (List.nodup_singleton k)]
  simp only [mem_labelIndexes, List.mem_singleton]

theorem hostGoto_defined {l : Label} {k : Nat} (h : ∀ j : Nat, s.host.prog[j]? = some (HostStmt.label l) ↔ j = k) :
    hostGoto l s = .next (hostAt k s) := by
  simp [hostGoto, (labelIndexes_eq_singleton_iff _ _ _).2 h]

theorem hostGoto_undefined {l : Label}
    (h : ¬ ∃ k, ∀ j : Nat, s.host.prog[j]? = some (HostStmt.label l) ↔ j = k) :
    hostGoto l s = .fault .hostLabel := by
  unfold hostGoto
  split
  · next k hk => exact absurd ⟨k, (labelIndexes_eq_singleton_iff _ _ _).1 hk⟩ h
  · rfl

/-! ## The host-only statements -/

/-- A jump that does not stop moves the host and nothing else. -/
theorem hostGoto_next {l : Label} (h : hostGoto l s = .next t) : ∃ k, t = hostAt k s := by
  unfold hostGoto at h
  split at h
  · next k _ =>
    cases h
    exact ⟨k, rfl⟩
  · cases h

/-- 30_encoding.md R87: a statement other than `wr` and `rd` can move the host and assign its variables, no more. -/
theorem hostExec_hostOnly {st : HostStmt} (hwr : ∀ a v, st ≠ .wr a v) (hrd : ∀ a x, st ≠ .rd a x)
    (h : hostExec st s = .next t) : ∃ pos vars, t = { s with host := ⟨s.host.prog, pos, vars⟩ } := by
  have hgoto (l : Label) (hl : hostGoto l s = .next t) :
      ∃ pos vars, t = { s with host := ⟨s.host.prog, pos, vars⟩ } := by
    obtain ⟨k, rfl⟩ := hostGoto_next hl
    exact ⟨k, s.host.vars, rfl⟩
  cases st with
  | wr a v => exact absurd rfl (hwr a v)
  | rd a x => exact absurd rfl (hrd a x)
  | label l => cases h; exact ⟨_, _, rfl⟩
  | assign x e => cases h; exact ⟨_, _, rfl⟩
  | ifGoto c l =>
    simp only [hostExec] at h
    split at h
    · exact hgoto l h
    · cases h; exact ⟨_, _, rfl⟩
  | goto l => exact hgoto l h
  | halt => cases h; exact ⟨_, _, rfl⟩

/-- A jump taken: `goto`, or `if`/`goto` with a true condition. -/
theorem hostExec_jump {st : HostStmt} {l : Label}
    (h : st = .goto l ∨ ∃ c, st = .ifGoto c l ∧ evalCond s.host.vars c = true) : hostExec st s = hostGoto l s := by
  rcases h with rfl | ⟨c, rfl, hc⟩
  · rfl
  · simp [hostExec, hc]

/-- A jump not taken. -/
theorem hostExec_ifGoto_false {c : HostCond} (l : Label) (hc : evalCond s.host.vars c = false) :
    hostExec (.ifGoto c l) s = .next (hostNext s) := by
  simp [hostExec, hc]

/-- Settles O43: each host-only statement's own effect, and that none of them reaches past the host. -/
theorem hostOnlyStatementsAreInvisible : Obligations.HostOnlyStatementsAreInvisible := by
  unfold Obligations.HostOnlyStatementsAreInvisible
  intro s st hst hwr hrd
  have hx := hostStep_at hst
  refine ⟨fun t ht => ?_, ?_, fun l hl => ⟨fun k hk => ?_, fun hno => ?_⟩, ?_, ?_, ?_⟩
  · obtain ⟨pos, vars, rfl⟩ := hostExec_hostOnly hwr hrd (hx.symm.trans ht)
    exact ⟨sameExcept_outside _ s s.rdata s.draws s.turns _, rfl, rfl, rfl⟩
  · rintro x e rfl
    obtain ⟨hset, hother⟩ := hostVar_hostAssign x (evalExpr s.host.vars e) s
    exact ⟨_, hx, rfl, hset, hother⟩
  · exact ⟨_, hx.trans ((hostExec_jump hl).trans (hostGoto_defined hk)), rfl⟩
  · exact hx.trans ((hostExec_jump hl).trans (hostGoto_undefined hno))
  · rintro c l rfl hc
    exact ⟨_, hx.trans (hostExec_ifGoto_false l hc), rfl⟩
  · rintro l rfl
    exact ⟨_, hx, rfl⟩
  · rintro rfl
    exact ⟨_, hx, by simp⟩

end Sys2Proof.Machine

/-! SUPPORT. Host programs as they run: the pseudo-instructions of 30_encoding.md R89, statement by statement. -/

namespace Sys2Proof.Machine

variable {s t u : State} {code : List HostStmt}

/-! ## Runs -/

/-- Some number of steps leads from `s` to `t`. -/
def Runs (s t : State) : Prop := ∃ k, core.run k s = .next t

theorem Runs.refl (s : State) : Runs s s := ⟨0, rfl⟩

theorem Runs.head (h : step s = .next t) (ht : Runs t u) : Runs s u := by
  obtain ⟨k, hk⟩ := ht
  exact ⟨k + 1, (core_run_succ k h).trans hk⟩

/-! ## What a frame says of a register, and of the flags -/

theorem SameExcept.regAt_eq {P : Nat → Prop} {n : Nat} (h : SameExcept P s t) (hn : n < 256) (hP : ¬ P n) :
    regAt n t = regAt n s := by
  refine congrArg BitVec.toNat (h _ ?_)
  rwa [BitVec.toNat_ofNat, Nat.mod_eq_of_lt hn]

theorem SameExcept.status_eq (h : SameExcept (fun _ => False) s t) : t.status = s.status := h 0x01#8 id

/-- Equal registers make every frame. -/
theorem SameExcept.of_none {P : Nat → Prop} (h : SameExcept (fun _ => False) s t) : SameExcept P s t :=
  h.mono fun _ => False.elim

theorem InputRegs.lt {n : Nat} (h : InputRegs n) : n < 256 := by
  unfold InputRegs at h
  omega

/-! ## A host that moves next -/

/-- The host moves next (no command is in flight and no turn is scheduled), with the statements `code` before it. -/
structure Ready (code : List HostStmt) (s : State) : Prop where
  idle : s.busy = false
  unscheduled : s.turns = []
  rest : s.host.prog.drop s.host.pos = code

theorem Ready.ended (h : Ready [] s) : s.host.prog[s.host.pos]? = none :=
  List.getElem?_eq_none (List.drop_eq_nil_iff.1 h.rest)

variable {st : HostStmt}

theorem Ready.fetch (h : Ready (st :: code) s) : s.host.prog[s.host.pos]? = some st := by
  rw [← List.head?_drop, h.rest, List.head?_cons]

theorem Ready.step_eq_hostStep (h : Ready code s) : step s = hostStep s := step_host h.unscheduled h.idle

theorem Ready.step_eq (h : Ready (st :: code) s) : step s = hostExec st s :=
  h.step_eq_hostStep.trans (hostStep_at h.fetch)

/-- After one statement: the host is ready for the next when that one left BUSY and the turns alone and moved on. -/
theorem Ready.next (h : Ready (st :: code) s) (hb : t.busy = false) (hturns : t.turns = s.turns)
    (hprog : t.host.prog = s.host.prog) (hpos : t.host.pos = s.host.pos + 1) : Ready code t where
  idle := hb
  unscheduled := hturns.trans h.unscheduled
  rest := by rw [hprog, hpos, ← List.tail_drop, h.rest, List.tail_cons]

/-- A program of one source line, loaded while the host moves next. -/
theorem ready_loadHost (src : HostSrc) (hb : s.busy = false) (ht : s.turns = []) :
    Ready (expandLine 0 src) (loadHost [src] s) where
  idle := hb
  unscheduled := ht
  rest := by simp [loadHost, expandProgram]

theorem sameExcept_loadHost (P : Nat → Prop) (src : List HostSrc) (s : State) : SameExcept P s (loadHost src s) :=
  sameExcept_outside P s s.rdata s.draws s.turns _

/-! ## The statements in a run -/

/-- `wr` to an input register: the store, and on to the next statement. -/
theorem Ready.wr {a v : HostExpr} {n m : Nat} (h : Ready (.wr a v :: code) s) (ha : evalExpr s.host.vars a = n)
    (hn : InputRegs n) (hv : evalExpr s.host.vars v = m) (hm : m < 256) :
    ∃ t, step s = .next t ∧ Ready code t ∧ regAt n t = m ∧ SameExcept (fun k => k = n) s t := by
  subst ha hv
  have hn256 := hn.lt
  have haddr : (BitVec.ofNat 8 (evalExpr s.host.vars a)).toNat = evalExpr s.host.vars a := by simp [hn256]
  obtain ⟨hread, hframe⟩ := memWrite_input_effect h.idle (a := BitVec.ofNat 8 (evalExpr s.host.vars a))
    (haddr.symm ▸ hn) (BitVec.ofNat 8 (evalExpr s.host.vars v))
  obtain ⟨hwr, _⟩ := hostStatementsAreOneTransaction s a v 0
  obtain ⟨hgo, _⟩ := hwr h.fetch
  obtain ⟨t, hx, hsame, hturns, hhost⟩ := hgo hn256 hm
  rw [haddr] at hframe
  have ht := hframe.trans hsame.of_none
  refine ⟨t, h.step_eq_hostStep.trans hx, h.next ?_ hturns (by rw [hhost]) (by rw [hhost]), ?_, ht⟩
  · exact (ht.mono fun _ hk => hk ▸ hn).busy_of_inputs.trans h.idle
  · rw [regAt, hsame _ id, hread, BitVec.toNat_ofNat, Nat.mod_eq_of_lt hm]

/-- `rd`: the byte to the variable, and on to the next statement. -/
theorem Ready.rd {a : HostExpr} {x : HostVar} {n : Nat} (h : Ready (.rd a x :: code) s)
    (ha : evalExpr s.host.vars a = n) (hn : n < 256) :
    ∃ t, step s = .next t ∧ Ready code t ∧ SameExcept (fun _ => False) s t ∧ t.host.prog = s.host.prog ∧
      hostVar t.host.vars x = regAt n s ∧ ∀ y, y ≠ x → hostVar t.host.vars y = hostVar s.host.vars y := by
  subst ha
  obtain ⟨_, hrd⟩ := hostStatementsAreOneTransaction s a (.num 0) x
  obtain ⟨hgo, _⟩ := hrd h.fetch
  obtain ⟨t, hx, hsame, hturns, hprog, hpos, hvars⟩ := hgo hn
  have hb : t.busy = false := hsame.of_none.busy_of_inputs.trans h.idle
  exact ⟨t, h.step_eq_hostStep.trans hx, h.next hb hturns hprog hpos, hsame, hprog, hvars⟩

theorem Ready.label {l : Label} (h : Ready (.label l :: code) s) :
    step s = .next (hostNext s) ∧ Ready code (hostNext s) :=
  ⟨h.step_eq, h.next h.idle rfl rfl rfl⟩

theorem Ready.ifGoto_false {c : HostCond} {l : Label} (h : Ready (.ifGoto c l :: code) s)
    (hc : evalCond s.host.vars c = false) : step s = .next (hostNext s) ∧ Ready code (hostNext s) :=
  ⟨h.step_eq.trans (hostExec_ifGoto_false l hc), h.next h.idle rfl rfl rfl⟩

/-- A label that ends the program. -/
theorem Ready.label_last {l : Label} (h : Ready [.label l] s) : Runs s (hostNext s) ∧ Ready [] (hostNext s) := by
  obtain ⟨hx, hend⟩ := h.label
  exact ⟨.head hx (.refl _), hend⟩

/-- A jump taken to the label that ends the program and is defined there alone. -/
theorem Ready.ifGoto_last {c : HostCond} {l : Label} {body : List HostStmt} (h : Ready (.ifGoto c l :: code) s)
    (hc : evalCond s.host.vars c = true) (hprog : s.host.prog = body ++ [.label l]) (hl : .label l ∉ body) :
    step s = .next (hostAt body.length s) ∧ Ready [.label l] (hostAt body.length s) := by
  have hone (j : Nat) : s.host.prog[j]? = some (HostStmt.label l) ↔ j = body.length := by
    rw [hprog]
    refine ⟨fun hj => ?_, fun hj => by simp [hj]⟩
    by_contra hne
    rcases Nat.lt_or_gt_of_ne hne with hlt | hgt
    · rw [List.getElem?_append_left hlt] at hj
      exact hl (List.mem_of_getElem? hj)
    · rw [List.getElem?_eq_none (by simp; omega)] at hj
      cases hj
  have hjump : hostExec (.ifGoto c l) s = hostGoto l s := hostExec_jump (.inr ⟨c, rfl, hc⟩)
  exact ⟨h.step_eq.trans (hjump.trans (hostGoto_defined hone)), h.idle, h.unscheduled, by simp [hprog]⟩

/-! ## The frames of the host's moves -/

theorem sameExcept_hostAt (P : Nat → Prop) (k : Nat) (s : State) : SameExcept P s (hostAt k s) :=
  sameExcept_outside P s s.rdata s.draws s.turns _

theorem sameExcept_hostNext (P : Nat → Prop) (s : State) : SameExcept P s (hostNext s) :=
  sameExcept_hostAt P (s.host.pos + 1) s

/-! ## Writes in a row: `wrser` and `wrin` -/

/-- `wr BASE+o, v(0)`, `wr BASE+o+1, v(1)` and so on to the program's end fill the registers from BASE+o. -/
theorem runs_writes (base : RegName) (vals : List Nat) (o : Nat) (hv : ∀ v ∈ vals, v < 256)
    (hin : ∀ i, i < vals.length → InputRegs (regBase base + (o + i)))
    (h : Ready ((vals.zipIdx o).map fun vi => .wr (.add (.reg base) (.num vi.2)) (.num vi.1)) s) :
    ∃ t, Runs s t ∧ Ready [] t ∧
      (∀ i, (hi : i < vals.length) → regAt (regBase base + (o + i)) t = vals[i]) ∧
      SameExcept (fun n => regBase base + o ≤ n ∧ n < regBase base + o + vals.length) s t := by
  induction vals generalizing s o with
  | nil => exact ⟨s, .refl s, h, by simp, .refl _ s⟩
  | cons v vals ih =>
    obtain ⟨hv0, hvs⟩ := List.forall_mem_cons.1 hv
    have hin0 : InputRegs (regBase base + o) := hin 0 (by simp)
    obtain ⟨s', hx, h', hreg, hframe⟩ := h.wr (n := regBase base + o) (m := v) rfl hin0 rfl hv0
    have hin' (i : Nat) (hi : i < vals.length) : InputRegs (regBase base + (o + 1 + i)) := by
      rw [show o + 1 + i = o + (i + 1) by omega]
      exact hin (i + 1) (by simpa using hi)
    obtain ⟨t, hrun, ht, hregs, hframe'⟩ := ih (o + 1) hvs hin' h'
    refine ⟨t, .head hx hrun, ht, fun i hi => ?_, ?_⟩
    · cases i with
      | zero => exact (hframe'.regAt_eq hin0.lt (by omega)).trans hreg
      | succ i =>
        rw [show o + (i + 1) = o + 1 + i by omega]
        exact hregs i (by simpa using hi)
    · simp only [List.length_cons]
      exact (hframe.mono fun n hn => by omega).trans (hframe'.mono fun n hn => by omega)

/-- A length and then an array of input registers: what `wrser` and `wrin` expand to. -/
theorem runs_lenWrites (len base : RegName) (vals : List Nat) {n : Nat} (hn : vals.length = n) (h256 : n < 256)
    (hv : ∀ v ∈ vals, v < 256) (hlen : InputRegs (regBase len)) (hin : ∀ i, i < n → InputRegs (regBase base + i))
    (hlt : regBase len < regBase base) (h : Ready (.wr (.reg len) (.num n) :: expandWrites base vals) s) :
    ∃ t, Runs s t ∧ Ready [] t ∧ regAt (regBase len) t = n ∧
      (∀ i, (hi : i < n) → regAt (regBase base + i) t = vals[i]) ∧
      SameExcept (fun k => k = regBase len ∨ (regBase base ≤ k ∧ k < regBase base + n)) s t := by
  subst hn
  obtain ⟨s', hx, h', hreg, hframe⟩ := h.wr rfl hlen rfl h256
  obtain ⟨t, hrun, ht, hregs, hframe'⟩ := runs_writes base vals 0 hv (by simpa using hin) h'
  simp only [Nat.zero_add, Nat.add_zero] at hregs hframe'
  refine ⟨t, .head hx hrun, ht, (hframe'.regAt_eq hlen.lt (by omega)).trans hreg, hregs, ?_⟩
  exact (hframe.mono fun _ => .inl).trans (hframe'.mono fun _ => .inr)

/-- Settles O45: the writes in a row fill SER_LEN and SER_CHAR, and an ASCII digit is a valid character. -/
theorem wrserLoadsAValidSerial : Obligations.WrserLoadsAValidSerial := by
  unfold Obligations.WrserLoadsAValidSerial
  intro s digits hb ht h12
  have hv : ∀ v ∈ digits.map fun d => 0x30 + d.val, v < 256 :=
    List.forall_mem_map.2 fun d _ => by omega
  have hin (i : Nat) (hi : i < digits.length) : InputRegs (0x10 + i) := by
    unfold InputRegs
    omega
  obtain ⟨t, ⟨k, hk⟩, hend, hlen, hchars, hframe⟩ := runs_lenWrites .serLen .serChar _
    (List.length_map _) (by omega) hv (.inl rfl) hin (by decide) (ready_loadHost (.wrser digits) hb ht)
  simp only [List.getElem_map, regBase] at hlen hchars hframe
  refine ⟨k, t, hk, hend.ended, hlen, hchars, (sameExcept_loadHost _ _ s).trans hframe, fun h1 => ?_⟩
  refine ⟨by omega, by omega, fun i hi => ?_⟩
  rw [hlen] at hi
  rw [hchars i hi]
  omega

/-- Settles O46: the writes in a row fill IN_LEN and IN_BUF. -/
theorem wrinLoadsTheInputBytes : Obligations.WrinLoadsTheInputBytes := by
  unfold Obligations.WrinLoadsTheInputBytes
  intro s bytes hb ht h64
  have hv : ∀ v ∈ bytes.map fun b => b.toNat, v < 256 := List.forall_mem_map.2 fun b _ => b.isLt
  have hin (i : Nat) (hi : i < bytes.length) : InputRegs (0x40 + i) := by
    unfold InputRegs
    omega
  obtain ⟨t, ⟨k, hk⟩, hend, hlen, hbuf, hframe⟩ := runs_lenWrites .inLen .inBuf _
    (List.length_map _) (by omega) hv (.inr (.inl rfl)) hin (by decide) (ready_loadHost (.wrin bytes) hb ht)
  simp only [List.getElem_map, regBase] at hlen hbuf hframe
  refine ⟨k, t, hk, hend.ended, ?_, (sameExcept_loadHost _ _ s).trans hframe⟩
  refine List.ext_getElem ((inputList_length t).trans hlen) fun i _ hi => ?_
  have hread : memRead (addrAt 0x40 i) t = bytes[i] := BitVec.eq_of_toNat_eq (hbuf i hi)
  simpa [inputList] using hread

/-! ## The guarded reads of `rdout` -/

/-- `n` guarded reads of `rdout`, from element `i` of OUT_BUF on: each a test that leaves, then a read (log entry 8). -/
def guardedReads (dst : HostVar) (l : Label) (i n : Nat) : List HostStmt :=
  (List.range' i n).flatMap fun j =>
    [.ifGoto (.eq (.var varN) (.num j)) l, .rd (.add (.reg .outBuf) (.num j)) (dst + j)]

theorem guardedReads_succ (dst : HostVar) (l : Label) (i n : Nat) :
    guardedReads dst l i (n + 1) = .ifGoto (.eq (.var varN) (.num i)) l ::
      .rd (.add (.reg .outBuf) (.num i)) (dst + i) :: guardedReads dst l (i + 1) n := by
  simp [guardedReads, List.range'_succ]

theorem label_notMem_guardedReads (dst : HostVar) (l l' : Label) (i n : Nat) :
    HostStmt.label l' ∉ guardedReads dst l i n := by
  simp [guardedReads]

theorem expandRdout_eq (dst : HostVar) (l : Label) :
    expandRdout dst l = .rd (.reg .outLen) varN :: guardedReads dst l 0 64 ++ [.label l] := by
  rw [expandRdout, guardedReads, List.range_eq_range', bufBytes]

/-- With `$n = i + m`, the guarded reads from element `i` on read the `m` elements below `$n` and then leave, by the
next test or at the 64th element. -/
theorem runs_guardedReads {dst : Nat} {l : Label} {body : List HostStmt} (hl : .label l ∉ body) (hdst : varN < dst)
    (m i r : Nat) (h64 : i + (m + r) = 64) (hprog : s.host.prog = body ++ [.label l])
    (hn : hostVar s.host.vars varN = i + m) (h : Ready (guardedReads dst l i (m + r) ++ [.label l]) s) :
    ∃ t, Runs s t ∧ Ready [] t ∧ SameExcept (fun _ => False) s t ∧
      (∀ y : Nat, y < dst + i → hostVar t.host.vars y = hostVar s.host.vars y) ∧
      ∀ j, i ≤ j → j < i + m → hostVar t.host.vars (dst + j) = regAt (0x80 + j) s := by
  induction m generalizing s i with
  | zero =>
    cases r with
    | zero =>
      obtain ⟨hrun, ht⟩ := Ready.label_last h
      exact ⟨_, hrun, ht, sameExcept_hostNext _ s, fun _ _ => rfl, fun j _ _ => by omega⟩
    | succ r =>
      rw [Nat.zero_add, guardedReads_succ] at h
      obtain ⟨hx, h'⟩ := Ready.ifGoto_last h (by simpa [evalCond, evalExpr] using hn) hprog hl
      obtain ⟨hrun, ht⟩ := h'.label_last
      exact ⟨_, .head hx hrun, ht, (sameExcept_hostAt _ _ s).trans (sameExcept_hostNext _ _), fun _ _ => rfl,
        fun j _ _ => by omega⟩
  | succ m ih =>
    rw [show m + 1 + r = m + r + 1 by omega, guardedReads_succ] at h
    obtain ⟨hx, h'⟩ := Ready.ifGoto_false h (by simp [evalCond, evalExpr, hn])
    obtain ⟨s', hx', h', hsame, hprog', hset, hother⟩ := h'.rd (n := 0x80 + i) rfl (by omega)
    have hnext := sameExcept_hostNext (fun _ => False) s
    have hsame' := hnext.trans hsame
    have hn' : hostVar s'.host.vars varN = i + 1 + m := by
      rw [hother varN (Nat.ne_of_lt (Nat.lt_add_right i hdst))]
      exact hn.trans (by omega)
    obtain ⟨t, hrun, ht, hframe, hlow, hhigh⟩ := ih (i + 1) (by omega) (hprog'.trans hprog) hn' h'
    refine ⟨t, .head hx (.head hx' hrun), ht, hsame'.trans hframe, fun y hy => ?_, fun j hj hjm => ?_⟩
    · exact (hlow y (by omega)).trans (hother y (Nat.ne_of_lt hy))
    · rcases Nat.eq_or_lt_of_le hj with rfl | hlt
      · exact (hlow _ (by omega)).trans (hset.trans (hnext.regAt_eq (by omega) id))
      · exact (hhigh j hlt (by omega)).trans (hsame'.regAt_eq (by omega) id)

/-- Settles O47: the first read sets `$n` to OUT_LEN, and the guarded reads read that many elements and leave `$n`,
which lies below the variables they set. -/
theorem rdoutReadsTheOutputBytes : Obligations.RdoutReadsTheOutputBytes := by
  unfold Obligations.RdoutReadsTheOutputBytes
  intro s dst hb ht h64 hdst
  have h := ready_loadHost (.rdout dst) hb ht
  rw [expandLine, expandRdout_eq] at h
  have hload := sameExcept_loadHost (fun _ => False) [.rdout dst] s
  have hlabel : HostStmt.label (.fresh 0) ∉ .rd (.reg .outLen) varN :: guardedReads dst (.fresh 0) 0 64 := by
    simp [label_notMem_guardedReads]
  obtain ⟨s', hx, h', hsame, hprog, hset, _⟩ := Ready.rd h (n := 0x06) rfl (by omega)
  have hsame' := hload.trans hsame
  have hn := hset.trans (hload.regAt_eq (by omega) id)
  obtain ⟨t, hrun, hend, hframe, hlow, hhigh⟩ := runs_guardedReads hlabel hdst (regAt 0x06 s) 0 (64 - regAt 0x06 s)
    (by omega) (hprog.trans (by simp [loadHost, expandProgram, expandLine, expandRdout_eq])) (by simpa using hn)
    (by rwa [Nat.add_sub_of_le h64])
  obtain ⟨k, hk⟩ := Runs.head hx hrun
  exact ⟨k, t, hk, hend.ended, (hlow varN hdst).trans hn,
    fun i hi => (hhigh i (by omega) (by omega)).trans (hsame'.regAt_eq (by omega) id), hsame'.trans hframe⟩

/-! ## `run`: a command issued and waited for -/

/-- A command sees and changes registers only: from states with the same registers it ends in states with the same
registers. -/
theorem exec_congr (i : Instr) (h : SameExcept (fun _ => False) s t) :
    ∃ s' t', exec i s = .next s' ∧ exec i t = .next t' ∧ SameExcept (fun _ => False) s' t' := by
  obtain ⟨W, e, hW, hx⟩ := exec_operands i s
  refine ⟨_, _, hx s (.refl s), hx t (sameOperands_of_readRegs fun a _ => h a id), fun a _ => ?_⟩
  have hsame := hW.congr h
  by_cases ha : a.toNat = 0x01
  · obtain rfl : a = 0x01#8 := BitVec.eq_of_toNat_eq ha
    exact BitVec.eq_of_getLsbD_eq fun k _ => endCommand_bit_congr e (by rw [hsame.status_eq])
  · exact endCommand_congr e hsame.of_none a ha

theorem status_and_one (st : Byte) : (st.toNat &&& 1 != 0) = st.getLsbD 0 := by
  revert st; decide

/-- `wait` with BUSY = 0: one read of STATUS into `$st`, and the test falls through. -/
theorem Ready.wait {l : Label} (h : Ready (expandWait l ++ code) s) :
    ∃ t, Runs s t ∧ Ready code t ∧ SameExcept (fun _ => False) s t ∧ hostVar t.host.vars varSt = regAt 0x01 s := by
  obtain ⟨hx, h'⟩ := Ready.label h
  obtain ⟨t, hx', h', hsame, _, hset, _⟩ := h'.rd (n := 0x01) rfl (by omega)
  have hnext := sameExcept_hostNext (fun _ => False) s
  have hst := hset.trans (hnext.regAt_eq (by omega) id)
  have hidle : evalCond t.host.vars (.test (.var varSt) (.num 1)) = false := by
    simp only [evalCond, evalExpr, hst]
    exact (status_and_one s.status).trans h.idle
  obtain ⟨hx'', h''⟩ := h'.ifGoto_false hidle
  exact ⟨_, .head hx (.head hx' (.head hx'' (.refl _))), h'',
    (hnext.trans hsame).trans (sameExcept_hostNext _ t), hst⟩

/-- `cmd`: from an idle host that moves next the command is accepted, and the next step completes it. -/
theorem Ready.cmd {i : Instr} (h : Ready (expandCmd (encode i) :: code) s) :
    ∃ t t' u, step s = .next t ∧ step t = .next t' ∧ Ready code t' ∧ t'.done = true ∧
      exec i (acceptCommand (encode i) s) = .next u ∧ SameExcept (fun _ => False) u t' := by
  obtain ⟨hwr, _⟩ := hostStatementsAreOneTransaction s (.reg .cmd) (.num (encode i).toNat) 0
  obtain ⟨hgo, _⟩ := hwr h.fetch
  obtain ⟨t, hx, hsame, hturns, hhost⟩ := hgo (show 0 < 256 by omega) (encode i).isLt
  have haccept : memWrite 0 (BitVec.ofNat 8 (encode i).toNat) s = acceptCommand (encode i) s := by
    rw [memWrite_accept h.idle, BitVec.ofNat_toNat, BitVec.setWidth_eq]
  replace hsame : SameExcept (fun _ => False) (acceptCommand (encode i) s) t := haccept ▸ hsame
  obtain ⟨hbusy, _⟩ := acceptCommand_flags (encode i) s
  have hb : t.busy = true := hsame.of_none.busy_of_inputs.trans hbusy
  have hcmd : t.cmd = encode i := hsame 0x00#8 id
  obtain ⟨u, t', hu, hx', hut⟩ := exec_congr i hsame
  have hstep : step t = exec i t := (step_unscheduled (hturns.trans h.unscheduled) hb).trans
    (engineStep_decoded hb (hcmd ▸ decodeByte_encode i))
  obtain ⟨v, hv, hend⟩ := exec_ended i t
  obtain rfl : t' = v := by simpa [hx'] using hv
  obtain ⟨hb', hd, _⟩ := hend.flags
  obtain ⟨_, _, _, hturns', hhost', _⟩ := hend
  exact ⟨t, t', u, h.step_eq_hostStep.trans hx, hstep.trans hx',
    h.next hb' (hturns'.trans hturns) (by rw [hhost', hhost]) (by rw [hhost', hhost]), hd, hu, hut⟩

/-- Settles O44: the command completes before the host's next statement, and then one poll finds BUSY = 0. -/
theorem runIssuesTheCommandAndWaits : Obligations.RunIssuesTheCommandAndWaits := by
  unfold Obligations.RunIssuesTheCommandAndWaits
  intro s i hb hturns
  have h : Ready (expandCmd (encode i) :: (expandWait (.fresh 0) ++ [])) (loadHost [.run i] s) := by
    simpa [expandLine] using ready_loadHost (.run i) hb hturns
  obtain ⟨t₁, t₂, v, hx₁, hx₂, h₂, hd, hv, hvt₂⟩ := h.cmd
  obtain ⟨t, hrun, hend, ht₂t, hst⟩ := h₂.wait
  obtain ⟨k, hk⟩ := Runs.head hx₁ (.head hx₂ hrun)
  have hload : SameExcept (fun _ => False) (acceptCommand (encode i) s)
      (acceptCommand (encode i) (loadHost [.run i] s)) := sameExcept_outside _ _ s.rdata s.draws s.turns _
  obtain ⟨u, v', hu, hv', huv⟩ := exec_congr i hload
  obtain rfl : v = v' := by simpa [hv] using hv'
  have hut₂ := huv.trans hvt₂
  have hdone : t.done = t₂.done := congrArg (fun st : Byte => st.getLsbD 1) ht₂t.status_eq
  exact ⟨k, t, u, hu, hk, hut₂.trans ht₂t, hend.ended, hst.trans (hut₂.regAt_eq (by omega) id), hend.idle,
    hdone.trans hd⟩

end Sys2Proof.Machine

/-! SUPPORT. The BCD encoder: the statements of 40_bcd.md. -/

namespace Sys2Proof.Machine

variable {s : State}

/-! ## The ends of the three commands -/

theorem exec_validate (s : State) :
    exec .validate s = .next (completeCmd (setResult (resultValidate (serialValid s)) s)) := rfl

theorem exec_bcdpack_valid (h : SerialOk s) : exec .bcdpack s = .next (completeCmd (setOut (bcdBlock s) s)) :=
  if_pos ((serialValid_iff s).2 h)

theorem exec_bcdpack_invalid (h : ¬ SerialOk s) : exec .bcdpack s = .next (raiseCmdError .validation s) :=
  if_neg (mt (serialValid_iff s).1 h)

theorem exec_bcdunpack_six (h : s.inLen.toNat = 6) :
    exec .bcdunpack s = .next (completeCmd (setResult (resultUnpack (digitsOk (blockDigits (inputBytes s))))
      (setDigits (blockDigits (inputBytes s)) s))) :=
  if_neg (not_not.2 h)

theorem exec_bcdunpack_other (h : s.inLen.toNat ≠ 6) : exec .bcdunpack s = .next (raiseCmdError .length s) :=
  if_pos h

/-! ## VALIDATE -/

/-- RESULT after a command whose last write is to it. -/
theorem memRead_completed_setResult (v : Byte) (s : State) : memRead 0x03 (completeCmd (setResult v s)) = v := rfl

/-- Settles O14: the verdict is `serialValid`, which decides SerialOk. -/
theorem validateWritesTheVerdict : Obligations.ValidateWritesTheVerdict := by
  unfold Obligations.ValidateWritesTheVerdict
  refine ⟨decodeByte_encode .validate, fun s => ⟨_, exec_validate s, fun h => ?_, fun h => ?_,
    completedWriting rfl rfl (setResult_frame _ s) ⟨rfl, rfl, rfl, rfl⟩⟩⟩
  · rw [memRead_completed_setResult, (serialValid_iff s).2 h]
    rfl
  · rw [memRead_completed_setResult, (serialValid_eq_false s).2 h]
    rfl

/-! ## BCDPACK -/

/-- OUT_BUF after a command that ends with a write of it: the bytes written, then 0. -/
theorem memRead_completed_setOut (b : List Byte) (s : State) (k : Nat) (hk : k < 64) :
    memRead (addrAt 0x80 k) (completeCmd (setOut b s)) = b.getD k 0 := by
  rw [memRead_outBuf _ k hk]
  exact fillBytes_getElem 64 b k hk

/-- OUT_LEN after a command that ends with a write of OUT_BUF. -/
theorem memRead_completed_setOut_len (b : List Byte) (s : State) :
    memRead 0x06 (completeCmd (setOut b s)) = BitVec.ofNat 8 b.length := rfl

/-- A command that ends with a write of OUT_BUF and OUT_LEN wrote no other register. -/
theorem completedWriting_setOut (b : List Byte) (s : State) :
    CompletedWriting OutRegs s (completeCmd (setOut b s)) :=
  completedWriting rfl rfl (setOut_frame b s) ⟨rfl, rfl, rfl, rfl⟩

theorem bcdBlock_getD (h : SerialOk s) (k : Nat) (hk : k < 6) : (bcdBlock s).getD k 0 = serialBlockByte s k := by
  simp [bcdBlock_eq h, hk]

/-- Settles O15: a valid serial's block goes to OUT_BUF, and an invalid serial is refused. -/
theorem bcdpackWritesTheBlock : Obligations.BcdpackWritesTheBlock := by
  unfold Obligations.BcdpackWritesTheBlock
  refine ⟨decodeByte_encode .bcdpack, fun s => ⟨fun h => ?_,
    fun h => ⟨_, exec_bcdpack_invalid h, refusedWith_raise .validation s⟩⟩⟩
  have hlen := bcdBlock_length h
  refine ⟨_, exec_bcdpack_valid h, ?_, fun k hk => ?_, fun k h6 h64 => ?_, completedWriting_setOut _ s⟩
  · rw [memRead_completed_setOut_len, hlen]
    rfl
  · rw [memRead_completed_setOut _ s k (by omega), bcdBlock_getD h k hk]
  · rw [memRead_completed_setOut _ s k h64, List.getD_eq_default _ _ (by omega)]

/-! ## The block as a number -/

/-- Pair `k` of the padded serial as a number below 100, pair 0 the least significant (40_bcd.md R107). -/
def serialPair (s : State) (k : Nat) : Nat := 10 * serialDigit s (2 * (5 - k)) + serialDigit s (2 * (5 - k) + 1)

theorem serialPair_lt (h : SerialOk s) (k : Nat) : serialPair s k < 100 := by
  have hhi := serialDigit_le h (2 * (5 - k)) (by omega)
  have hlo := serialDigit_le h (2 * (5 - k) + 1) (by omega)
  unfold serialPair
  omega

/-- A block byte is its pair in BCD. -/
theorem serialBlockByte_eq_pair (h : SerialOk s) (k : Nat) :
    serialBlockByte s k = BitVec.ofNat 8 (16 * (serialPair s k / 10) + serialPair s k % 10) := by
  have hlo := serialDigit_le h (2 * (5 - k) + 1) (by omega)
  have hdiv : serialPair s k / 10 = serialDigit s (2 * (5 - k)) := by
    unfold serialPair
    omega
  have hmod : serialPair s k % 10 = serialDigit s (2 * (5 - k) + 1) := by
    unfold serialPair
    omega
  rw [hdiv, hmod, serialBlockByte]

/-- The serial's six pairs, the least significant first. -/
def serialPairs (s : State) : List Nat := (List.range 6).map (serialPair s)

theorem serialPairs_lt (h : SerialOk s) : ∀ p ∈ serialPairs s, p < 100 := by
  intro p hp
  obtain ⟨k, _, rfl⟩ := List.mem_map.1 hp
  exact serialPair_lt h k

/-- N is the number whose digits in base 100 are the pairs. -/
theorem serialNumber_eq_ofDigits (s : State) : serialNumber s = Nat.ofDigits 100 (serialPairs s) := by
  simp only [serialNumber, serialPairs, serialPair, List.range, List.range.loop, List.map, List.sum_cons, List.sum_nil,
    Nat.ofDigits_cons, Nat.ofDigits_nil, Nat.reduceMul, Nat.reduceSub, Nat.reduceAdd]
  omega

/-- Digit `k` of a number is the `k`-th of the digits that make it, in any base above them. -/
theorem ofDigits_div_pow_mod {b k : Nat} {ds : List Nat} (h : ∀ d ∈ ds, d < b) (hk : k < ds.length) :
    Nat.ofDigits b ds / b ^ k % b = ds[k] := by
  have hlt := h ds[k] (List.getElem_mem hk)
  rw [Nat.ofDigits_div_pow_eq_ofDigits_drop k (by omega) ds h, List.drop_eq_getElem_cons hk, Nat.ofDigits_cons,
    Nat.add_mul_mod_self_left, Nat.mod_eq_of_lt hlt]

theorem serialNumber_div_pow_mod (h : SerialOk s) (k : Nat) (hk : k < 6) :
    serialNumber s / 100 ^ k % 100 = serialPair s k := by
  rw [serialNumber_eq_ofDigits, ofDigits_div_pow_mod (serialPairs_lt h) (by simpa [serialPairs] using hk)]
  simp [serialPairs]

theorem serialNumber_lt (h : SerialOk s) : serialNumber s < 100 ^ 6 := by
  have hlt := Nat.ofDigits_lt_base_pow_length (by omega) (serialPairs_lt h)
  rwa [← serialNumber_eq_ofDigits, serialPairs, List.length_map, List.length_range] at hlt

/-- Settles O16: the pairs are N's digits in base 100, and each byte BCDPACK writes is a pair in BCD. -/
theorem blockIsTheSerialNumberInPairs : Obligations.BlockIsTheSerialNumberInPairs := by
  unfold Obligations.BlockIsTheSerialNumberInPairs
  intro s h
  have hlt := serialNumber_lt h
  refine ⟨by omega, serialDigit_le h, _, exec_bcdpack_valid h, fun k hk => ?_⟩
  rw [memRead_completed_setOut _ s k (by omega), bcdBlock_getD h k hk, serialBlockByte_eq_pair h,
    serialNumber_div_pow_mod h k hk]

/-! ## BCDUNPACK -/

/-- DIG_OUT after a command that ends with a write of it and of RESULT: the digits written. -/
theorem regAt_completed_setDigits (v : Byte) (ds : List Nibble) (s : State) (i : Nat) (hi : i < ds.length)
    (h12 : i < 12) : regAt (0x20 + i) (completeCmd (setResult v (setDigits ds s))) = ds[i].toNat := by
  rw [regAt_digOut _ i h12, List.getElem_eq_getD 0]
  exact setDigits_digit ds s i h12

/-- BCD_OK, read off DIG_OUT: the twelve digits written are all at most 9. -/
theorem digitsOk_iff_digOut_le (v : Byte) {ds : List Nibble} (hds : ds.length = 12) (s : State) :
    digitsOk ds = true ↔ ∀ i, i < 12 → regAt (0x20 + i) (completeCmd (setResult v (setDigits ds s))) ≤ 9 := by
  rw [digitsOk_iff, ← hds]
  refine forall₂_congr fun i hi => ?_
  rw [regAt_completed_setDigits v ds s i hi (by omega)]

theorem inputBytes_getElem_toNat (h : s.inLen.toNat ≤ 64) (i : Nat) (hi : i < (inputBytes s).length) :
    (inputBytes s)[i].toNat = regAt (0x40 + i) s := by
  rw [inputBytes_length h] at hi
  simp only [inputBytes, List.getElem_take, Vector.getElem_toList]
  exact (regAt_inBuf s i (by omega)).symm

/-- Writes of RESULT and DIG_OUT touch no other register. -/
theorem setResult_setDigits_frame (v : Byte) (ds : List Nibble) (s : State) :
    SameExcept (fun n => n = 0x03 ∨ (0x20 ≤ n ∧ n < 0x2C)) s (setResult v (setDigits ds s)) :=
  ((setDigits_frame ds s).mono fun _ => .inr).trans ((setResult_frame v _).mono fun _ => .inl)

/-- Settles O17: the digits are the nibbles of the input bytes, the last byte first, and BCD_OK is their `digitsOk`. -/
theorem bcdunpackWritesTheDigits : Obligations.BcdunpackWritesTheDigits := by
  unfold Obligations.BcdunpackWritesTheDigits
  refine ⟨decodeByte_encode .bcdunpack, fun s => ⟨fun h => ?_,
    fun h => ⟨_, exec_bcdunpack_other h, refusedWith_raise .length s⟩⟩⟩
  rw [regAt_inLen] at h
  have hb : (inputBytes s).length = 6 := (inputBytes_length (by omega)).trans h
  have hds : (blockDigits (inputBytes s)).length = 12 := by rw [blockDigits_length, hb]
  refine ⟨_, exec_bcdunpack_six h, fun j hj => ?_, fun hd => ?_, fun hd => ?_,
    completedWriting rfl rfl (setResult_setDigits_frame _ _ s) ⟨rfl, rfl, rfl, rfl⟩⟩
  · obtain ⟨hhi, hlo⟩ := blockDigits_getElem (inputBytes s) j (by omega)
    rw [regAt_completed_setDigits _ _ s (2 * j) (by omega) (by omega),
      regAt_completed_setDigits _ _ s (2 * j + 1) (by omega) (by omega), hhi, hlo, hiNibble_toNat, loNibble_toNat,
      inputBytes_getElem_toNat (by omega), hb]
    exact ⟨rfl, rfl⟩
  · rw [memRead_completed_setResult, (digitsOk_iff_digOut_le _ hds s).2 hd]
    rfl
  · rw [memRead_completed_setResult, Bool.eq_false_iff.2 (mt (digitsOk_iff_digOut_le _ hds s).1 hd)]
    rfl

/-! ## Packing and unpacking are inverse -/

theorem paddedDigits_toNat (h : SerialOk s) :
    (paddedDigits s).map BitVec.toNat = (List.range 12).map (serialDigit s) := by
  obtain ⟨_, h12, _⟩ := id h
  refine List.ext_getElem (by simp [paddedDigits_length h12]) fun j _ _ => ?_
  simp [paddedDigits_getElem h]

/-- Settles O18: the block's digits are the padded digits, and packing inverts rendering bytes as nibbles. -/
theorem unpackInvertsPack : Obligations.UnpackInvertsPack := by
  unfold Obligations.UnpackInvertsPack
  refine ⟨fun s h => ⟨?_, digitsOk_bcdBlock h⟩, fun b _ _ => packBlock_blockDigits b⟩
  rw [digits_bcdBlock h, paddedDigits_toNat h]

end Sys2Proof.Machine

/-! SUPPORT. The checksum: the statements of 41_checksum.md. -/

namespace Sys2Proof.Machine

variable {s : State}

/-! ## CSUM -/

theorem exec_csum_even (h64 : s.inLen.toNat ≤ 64) (h2 : s.inLen.toNat % 2 = 0) :
    exec .csum s = .next (completeCmd (setCsum (checksum (inputList s)) s)) := by
  rw [← inputBytes_eq h64]
  exact if_neg (not_or.2 ⟨not_lt.2 h64, not_not.2 h2⟩)

theorem exec_csum_other (h : 64 < s.inLen.toNat ∨ s.inLen.toNat % 2 ≠ 0) :
    exec .csum s = .next (raiseCmdError .length s) :=
  if_pos h

/-- CSUM_LO and CSUM_HI after a command whose last write is to them. -/
theorem regAt_completed_setCsum (w : Word) (s : State) :
    regAt 0x08 (completeCmd (setCsum w s)) = w.toNat % 256 ∧
      regAt 0x09 (completeCmd (setCsum w s)) = w.toNat / 256 :=
  ⟨loByte_toNat w, hiByte_toNat w⟩

/-- Settles O19: an even length that fits IN_BUF completes after `setCsum`, and any other is refused. -/
theorem csumWritesTheChecksum : Obligations.CsumWritesTheChecksum := by
  unfold Obligations.CsumWritesTheChecksum
  refine ⟨decodeByte_encode .csum, fun s => ⟨fun h64 h2 => ?_,
    fun h => ⟨_, exec_csum_other h, refusedWith_raise .length s⟩⟩⟩
  obtain ⟨hlo, hhi⟩ := regAt_completed_setCsum (checksum (inputList s)) s
  exact ⟨_, exec_csum_even h64 h2, hlo, hhi,
    completedWriting rfl rfl (setCsum_frame _ s) ⟨rfl, rfl, rfl, rfl⟩⟩

/-! ## The closed form -/

theorem rotl16_iterate_ones (k : Nat) : (rotl16^[k]) 0xFFFF = 0xFFFF :=
  Function.iterate_fixed rotl16_ones k

theorem rotl16_iterate_xor (k : Nat) (a b : Word) :
    (rotl16^[k]) (a ^^^ b) = (rotl16^[k]) a ^^^ (rotl16^[k]) b := by
  induction k generalizing a b with
  | zero => rfl
  | succ k ih => simp only [Function.iterate_succ_apply, rotl16_xor, ih]

/-- The rounds from any accumulator: the accumulator is rotated once a word, and each word once for itself and once for
each word after it. -/
theorem foldl_checksumRound (ws : List Word) (a : Word) :
    ws.foldl checksumRound a = (rotl16^[ws.length]) a ^^^ rotatedXor ws := by
  induction ws generalizing a with
  | nil => exact BitVec.xor_zero.symm
  | cons w ws ih =>
    calc ws.foldl checksumRound (rotl16 (a ^^^ w))
      _ = (rotl16^[ws.length + 1]) (a ^^^ w) ^^^ rotatedXor ws := ih _
      _ = (rotl16^[ws.length + 1]) a ^^^ ((rotl16^[ws.length + 1]) w ^^^ rotatedXor ws) := by
        rw [rotl16_iterate_xor, BitVec.xor_assoc]

theorem checksum_eq_rotatedXor (ws : List Word) : checksum (wordBytes ws) = 0xFFFF ^^^ rotatedXor ws := by
  rw [checksum_wordBytes, foldl_checksumRound, rotl16_iterate_ones]

/-- The part of the checksum that depends on the words is linear over XOR. -/
theorem rotatedXor_zipWith (ws vs : List Word) (h : ws.length = vs.length) :
    rotatedXor (List.zipWith (· ^^^ ·) ws vs) = rotatedXor ws ^^^ rotatedXor vs := by
  induction ws generalizing vs with
  | nil =>
    obtain rfl := List.length_eq_zero_iff.1 h.symm
    rfl
  | cons w ws ih =>
    obtain ⟨v, vs, rfl⟩ := List.exists_cons_of_length_eq_add_one h.symm
    have hlen : ws.length = vs.length := Nat.succ.inj h
    have hzip : (List.zipWith (· ^^^ ·) ws vs).length = vs.length := by simp [hlen]
    simp only [List.zipWith_cons_cons, rotatedXor, hzip, hlen, rotl16_iterate_xor, ih vs hlen]
    ac_rfl

/-- Settles O20: the rounds' closed form, where 0xFFFF is fixed by the rotations and the rest is linear over XOR. -/
theorem checksumHasTheClosedForm : Obligations.ChecksumHasTheClosedForm := by
  unfold Obligations.ChecksumHasTheClosedForm
  refine ⟨fun ws => ?_, rotl16_iterate_ones, fun w1 w2 w3 => ?_, fun ws vs h => ?_⟩
  · rw [checksum_eq_rotatedXor, rotl16_iterate_ones]
  · have hwords : rotatedXor [w1, w2, w3] = (rotl16^[3]) w1 ^^^ ((rotl16^[2]) w2 ^^^ ((rotl16^[1]) w3 ^^^ 0)) := rfl
    rw [checksum_eq_rotatedXor, hwords, xor_zero, BitVec.xor_assoc, BitVec.xor_assoc]
  · simp only [checksum_eq_rotatedXor]
    rw [rotatedXor_zipWith ws vs h, BitVec.xor_assoc _ _ 0xFFFF, xor_xor_cancel_comm, BitVec.xor_assoc]

/-! ## What the checksum sees -/

theorem rotl16_bijective : Function.Bijective rotl16 :=
  Finite.injective_iff_bijective.1 rotl16_injective

theorem foldl_checksumRound_injective (ws : List Word) : Function.Injective (ws.foldl checksumRound) := by
  induction ws with
  | nil => exact Function.injective_id
  | cons w ws ih => exact ih.comp (rotl16_injective.comp (xor_left_involutive w).injective)

theorem checksumRound_injective (a : Word) : Function.Injective (checksumRound a) :=
  rotl16_injective.comp (xor_right_involutive a).injective

/-- Settles O21: the rounds before the changed word agree, its own round gives different accumulators, and the rounds
after it keep them different. -/
theorem checksumSeesEveryWordAndTheirOrder : Obligations.ChecksumSeesEveryWordAndTheirOrder := by
  unfold Obligations.ChecksumSeesEveryWordAndTheirOrder
  refine ⟨rotl16_bijective, fun w => (xor_left_involutive w).bijective, fun pre post w w' hne heq => hne ?_,
    by decide, by decide⟩
  simp only [checksum_wordBytes, List.foldl_append, List.foldl_cons] at heq
  exact checksumRound_injective _ (foldl_checksumRound_injective post heq)

end Sys2Proof.Machine

/-! SUPPORT. The interleaver: the statements of 42_interleave.md. -/

namespace Sys2Proof.Machine

variable {s : State}

/-! ## The ends of the two commands -/

theorem exec_ilv_fits (h : s.inLen.toNat ≤ 32) :
    exec .ilv s = .next (completeCmd (setOut (interleave (inputList s)) s)) := by
  rw [← inputBytes_eq (by omega)]
  exact if_neg (not_lt.2 h)

theorem exec_ilv_over (h : 32 < s.inLen.toNat) : exec .ilv s = .next (raiseCmdError .length s) := if_pos h

theorem exec_dilv_fits (h : s.inLen.toNat ≤ 64) :
    exec .dilv s = .next (completeCmd (setOut (deinterleave (inputList s)) s)) := by
  rw [← inputBytes_eq h]
  exact if_neg (not_lt.2 h)

theorem exec_dilv_over (h : 64 < s.inLen.toNat) : exec .dilv s = .next (raiseCmdError .length s) := if_pos h

/-! ## What OUT_LEN and OUT_BUF hold after them -/

/-- OUT_LEN, as a number, after a command that ends with a write of bytes that fit OUT_BUF. -/
theorem regAt_completed_setOut_len {b : List Byte} (h : b.length ≤ 64) (s : State) :
    regAt 0x06 (completeCmd (setOut b s)) = b.length := by
  calc regAt 0x06 (completeCmd (setOut b s))
    _ = (BitVec.ofNat 8 b.length).toNat := congrArg BitVec.toNat (memRead_completed_setOut_len b s)
    _ = b.length := by rw [BitVec.toNat_ofNat, Nat.mod_eq_of_lt (by omega)]

/-- OUT_BUF past the bytes written, after a command that ends with a write of it. -/
theorem memRead_completed_setOut_rest {b : List Byte} (s : State) {k : Nat} (hb : b.length ≤ k) (hk : k < 64) :
    memRead (addrAt 0x80 k) (completeCmd (setOut b s)) = 0 := by
  rw [memRead_completed_setOut b s k hk, List.getD_eq_default _ _ hb]

theorem interleave_inputList_length (s : State) : (interleave (inputList s)).length = 2 * s.inLen.toNat := by
  rw [interleave_length, inputList_length]

theorem deinterleave_inputList_length (s : State) :
    (deinterleave (inputList s)).length = (s.inLen.toNat + 1) / 2 := by
  rw [deinterleave_length, inputList_length]

/-- Settles O22: up to 32 bytes go to OUT_BUF interleaved, and more are refused. -/
theorem ilvWritesTheInterleavedBytes : Obligations.IlvWritesTheInterleavedBytes := by
  unfold Obligations.IlvWritesTheInterleavedBytes
  refine ⟨decodeByte_encode .ilv, fun s => ⟨fun h => ?_,
    fun h => ⟨_, exec_ilv_over h, refusedWith_raise .length s⟩⟩⟩
  rw [regAt_inLen] at h ⊢
  have hlen := interleave_inputList_length s
  refine ⟨_, exec_ilv_fits h, ?_, fun i hi => ?_, fun k hn h64 => ?_, completedWriting_setOut _ s⟩
  · rw [regAt_completed_setOut_len (by omega), hlen]
  · obtain ⟨hdata, hfill⟩ := interleave_getD (inputList s) i
    rw [memRead_completed_setOut _ s (2 * i) (by omega), memRead_completed_setOut _ s (2 * i + 1) (by omega), hdata,
      inputList_getD hi]
    exact ⟨rfl, hfill⟩
  · exact memRead_completed_setOut_rest s (by omega) h64

/-- Settles O23: the even-indexed bytes of up to 64 go to OUT_BUF, and more are refused. -/
theorem dilvWritesTheEvenBytes : Obligations.DilvWritesTheEvenBytes := by
  unfold Obligations.DilvWritesTheEvenBytes
  refine ⟨decodeByte_encode .dilv, fun s => ⟨fun h => ?_,
    fun h => ⟨_, exec_dilv_over h, refusedWith_raise .length s⟩⟩⟩
  rw [regAt_inLen] at h ⊢
  have hlen := deinterleave_inputList_length s
  refine ⟨_, exec_dilv_fits h, ?_, fun i hi => ?_, fun k hn h64 => ?_, completedWriting_setOut _ s⟩
  · rw [regAt_completed_setOut_len (by omega), hlen]
  · rw [memRead_completed_setOut _ s i (by omega), deinterleave_getD, inputList_getD (by omega)]
  · exact memRead_completed_setOut_rest s (by omega) h64

/-! ## The laws of the interleaver -/

/-- 42_interleave.md R154: the fixed points of deinterleaving and interleaving again are the interleaved sequences. -/
theorem interleave_deinterleave_eq_iff (y : List Byte) :
    interleave (deinterleave y) = y ↔ y.length % 2 = 0 ∧ isInterleaved y = true := by
  refine ⟨fun h => ?_, fun ⟨heven, hodd⟩ => interleave_deinterleave y heven hodd⟩
  rw [← h, interleave_length]
  exact ⟨Nat.mul_mod_right 2 _, isInterleaved_interleave _⟩

/-- Settles O24: one way by induction, and the other on the even sequences detected as interleaved. -/
theorem deinterleaveInvertsInterleave : Obligations.DeinterleaveInvertsInterleave := by
  unfold Obligations.DeinterleaveInvertsInterleave
  refine ⟨deinterleave_interleave, fun y => ?_⟩
  rw [interleave_deinterleave_eq_iff, isInterleaved_iff]

/-- Settles O25: interleaving distributes over the parts of the image, so each plain byte lies at twice its offset. -/
theorem interleavedImageIsThePlainOneInterleaved : Obligations.InterleavedImageIsThePlainOneInterleaved := by
  unfold Obligations.InterleavedImageIsThePlainOneInterleaved
  refine ⟨interleave_append, fun blk => ⟨interleavedImage_eq blk, fun _ i _ => ?_⟩⟩
  rw [interleavedImage_eq]
  exact interleave_getD (plainImage blk) i

end Sys2Proof.Machine

/-! SUPPORT. The ROM image formatter: the statements of 43_rom_image.md. -/

namespace Sys2Proof.Machine

variable {s u : State} {il emu : Bool} {d d' x blk : List Byte} {i p : Nat} {b : Byte}

/-! ## Mode detection -/

theorem isInterleaved_inputList_iff (s : State) : isInterleaved (inputList s) = true ↔ DetectedIl s := by
  rw [isInterleaved_iff, inputList_length, DetectedIl, regAt_inLen]
  refine forall₂_congr fun i hi => ?_
  rw [inputList_getD hi]

theorem isInterleaved_eq_of_detected (h : il = true ↔ DetectedIl s) : isInterleaved (inputList s) = il :=
  Bool.eq_iff_iff.2 ((isInterleaved_inputList_iff s).trans h.symm)

/-- One odd-indexed byte other than 0x00 makes an input plain. -/
theorem isInterleaved_eq_false (hi : i < x.length) (hodd : i % 2 = 1) (hne : x.getD i 0 ≠ 0) :
    isInterleaved x = false :=
  Bool.eq_false_iff.2 fun h => hne ((isInterleaved_iff x).1 h i hi hodd)

theorem isInterleaved_replicate_zero (n : Nat) : isInterleaved (List.replicate n 0) = true :=
  (isInterleaved_iff _).2 fun i hi _ => by rw [List.getD_replicate 0 (by simpa using hi)]

theorem isInterleaved_interleavedImage (blk : List Byte) : isInterleaved (interleavedImage blk) = true := by
  rw [interleavedImage_eq, isInterleaved_interleave]

/-- Settles O29: detection is by the odd-indexed bytes, and FOOTER[1] is one of a plain image. -/
theorem modeIsDetectedByTheOddBytes : Obligations.ModeIsDetectedByTheOddBytes := by
  unfold Obligations.ModeIsDetectedByTheOddBytes
  refine ⟨isInterleaved_iff, fun s h => ?_, rfl, isInterleaved_replicate_zero,
    fun blk h => ⟨isInterleaved_plainImage h, isInterleaved_interleavedImage blk⟩⟩
  rw [inputBytes_eq h]
  exact isInterleaved_inputList_iff s

/-! ## The three ends of DECODE -/

theorem exec_decode_over (h : 64 < s.inLen.toNat) : exec .decode s = .next (raiseCmdError .length s) := if_pos h

theorem exec_decode_format (h64 : s.inLen.toNat ≤ 64) (hil : isInterleaved (inputList s) = il)
    (hlen : s.inLen.toNat ≠ imageBytes il) : exec .decode s = .next (raiseCmdError .format (decodeFormat il s)) := by
  rw [← inputBytes_eq h64] at hil
  subst hil
  rcases execDecode_cases s with ⟨hover, _⟩ | ⟨_, _, hx⟩ | ⟨_, heq, _⟩
  · omega
  · exact hx
  · exact absurd heq hlen

theorem imageBytes_le (il : Bool) : imageBytes il ≤ 64 := by cases il <;> decide

theorem exec_decode_report (hil : isInterleaved (inputList s) = il) (hlen : s.inLen.toNat = imageBytes il) :
    exec .decode s = .next (completeCmd (decodeReport il (inputList s) s)) := by
  have h64 : s.inLen.toNat ≤ 64 := hlen.trans_le (imageBytes_le il)
  rw [← inputBytes_eq h64] at hil ⊢
  subst hil
  rcases execDecode_cases s with ⟨hover, _⟩ | ⟨_, hne, _⟩ | ⟨_, _, hx⟩
  · omega
  · exact absurd hlen hne
  · exact hx

/-- DECODE of an image of its mode's length reports on the image's data bytes. -/
theorem exec_decode_image (hil : isInterleaved (inputList s) = il) (hlen : s.inLen.toNat = imageBytes il) :
    exec .decode s = .next (completeCmd (reportOf il (unfill il (inputList s)) s)) := by
  rw [exec_decode_report hil hlen, decodeReport_eq il _ s ((inputList_length s).trans hlen) hil]

/-! ## LENGTH and FORMAT -/

/-- The FORMAT branch clears the report registers other than RESULT. -/
theorem readLoc_decodeFormat (l : Loc) (s : State) (hl : ReportRegs (locAddr l)) (h3 : l ≠ .result) :
    readLoc l (decodeFormat il s) = 0 := by
  simp only [ReportRegs, CsumRegs] at hl
  cases l with
  | csumLo => rfl
  | csumHi => rfl
  | storedLo => rfl
  | storedHi => rfl
  | result => exact absurd rfl h3
  | digOut i => simp [readLoc, decodeFormat]
  | footerOut i => simp [readLoc, decodeFormat]
  | _ => simp only [locAddr] at hl; omega

theorem memRead_decodeFormat (a : Byte) (s : State) (ha : ReportRegs a.toNat) (h3 : a ≠ 0x03) :
    memRead a (decodeFormat il s) = 0 := by
  by_cases hr : locate a = .reserved
  · rw [memRead, hr]
    rfl
  · have haddr := locAddr_locate a hr
    refine readLoc_decodeFormat _ s (by rwa [haddr]) fun hres => h3 (BitVec.eq_of_toNat_eq ?_)
    rw [← haddr, hres]
    rfl

theorem raise_decodeFormat_frame (il : Bool) (s : State) :
    SameExcept (fun n => StatusRegs n ∨ ReportRegs n) s (raiseCmdError .format (decodeFormat il s)) :=
  ((decodeFormat_frame il s).mono fun _ => .inr).trans ((raiseCmdError_frame .format _).mono fun _ => .inl)

/-- Settles O27: the two errors of DECODE, and what FORMAT leaves in the report registers. -/
theorem decodeRefusesEveryOtherLength : Obligations.DecodeRefusesEveryOtherLength := by
  unfold Obligations.DecodeRefusesEveryOtherLength
  refine fun s => ⟨fun h => ⟨_, exec_decode_over h, refusedWith_raise .length s⟩, fun h64 il hil hlen => ?_⟩
  have hx := exec_decode_format h64 (isInterleaved_eq_of_detected hil) hlen
  obtain ⟨hst, _, _, _, _, _, _, hout⟩ := (CommandWrites.format il).keeps s
  refine ⟨_, hx, endsErr_raise .format hst, ?_, fun a ha h3 => ?_, raise_decodeFormat_frame il s, hout⟩
  · cases il <;> rfl
  · have hst : ¬ StatusRegs a.toNat := by
      simp only [StatusRegs, ReportRegs, CsumRegs] at ha ⊢
      omega
    rw [raiseCmdError_frame _ _ a hst, memRead_decodeFormat a s ha h3]

/-! ## The data bytes of an image -/

/-- Where data byte `i` of an image lies (43_rom_image.md R183). -/
def dataOffset (il : Bool) (i : Nat) : Nat := if il then 2 * i else i

theorem dataOffset_lt (il : Bool) {i j : Nat} (h : i < j) : dataOffset il i < dataOffset il j := by
  cases il
  · exact h
  · exact Nat.mul_lt_mul_of_pos_left h two_pos

theorem dataOffset_le (il : Bool) {i j : Nat} (h : i ≤ j) : dataOffset il i ≤ dataOffset il j := by
  cases il
  · exact h
  · exact Nat.mul_le_mul_left 2 h

/-- An image has 32 data bytes. -/
theorem imageBytes_eq_dataOffset (il : Bool) : imageBytes il = dataOffset il 32 := by cases il <;> rfl

theorem unfill_getD (il : Bool) (x : List Byte) (i : Nat) : (unfill il x).getD i 0 = x.getD (dataOffset il i) 0 := by
  cases il
  · rfl
  · exact deinterleave_getD x i

theorem unfill_length (h : x.length = imageBytes il) : (unfill il x).length = 32 := by
  obtain ⟨_, _, hlen⟩ := image_parts il x h
  exact hlen

theorem deinterleave_set (x : List Byte) (i : Nat) (b : Byte) :
    deinterleave (x.set (2 * i) b) = (deinterleave x).set i b := by
  induction x using deinterleave.induct generalizing i with
  | case1 => rfl
  | case2 a => cases i <;> rfl
  | case3 a c r ih =>
    cases i with
    | zero => rfl
    | succ k => exact congrArg (a :: ·) (ih k)

/-- Changing a data byte of an image changes that one of its data bytes. -/
theorem unfill_set (il : Bool) (x : List Byte) (i : Nat) (b : Byte) :
    unfill il (x.set (dataOffset il i) b) = (unfill il x).set i b := by
  cases il
  · rfl
  · exact deinterleave_set x i b

/-- The data bytes of the input are those at the addresses of 43_rom_image.md R183. -/
theorem unfill_inputList_getD (hlen : s.inLen.toNat = imageBytes il) (hi : i < 32) :
    (unfill il (inputList s)).getD i 0 = dataByte il s i := by
  have hlt := dataOffset_lt il hi
  rw [← imageBytes_eq_dataOffset, ← hlen] at hlt
  rw [unfill_getD, inputList_getD hlt]
  rfl

theorem unfill_inputList_length (hlen : s.inLen.toNat = imageBytes il) : (unfill il (inputList s)).length = 32 :=
  unfill_length ((inputList_length s).trans hlen)

/-! ## The report of DECODE, by the data bytes -/

theorem take_eq_map_getD {k : Nat} (h : k ≤ d.length) : d.take k = (List.range k).map fun i => d.getD i 0 := by
  refine List.ext_getElem (by simpa using h) fun i h1 _ => ?_
  have hi : i < d.length := by
    rw [List.length_take] at h1
    omega
  simp [hi]

theorem drop_footer_iff (h : d.length = 32) :
    d.drop 24 = footer ↔ ∀ k, k < 8 → d.getD (24 + k) 0 = footerByte k := by
  have hget (k : Nat) : (d.drop 24).getD k 0 = d.getD (24 + k) 0 := by
    simp [List.getD_eq_getElem?_getD]
  constructor
  · intro hf k _
    rw [← hget, hf]
    rfl
  · intro hf
    refine List.ext_getElem (by simp [h, footer_length]) fun k h1 h2 => ?_
    have hk := hf k h2
    rw [← hget] at hk
    rwa [List.getElem_eq_getD 0, List.getElem_eq_getD 0]

/-- The stored checksum is a given word when its bytes are the word's. -/
theorem eq_wordOf_iff (w : Word) (lo hi : Byte) : w = wordOf lo hi ↔ loByte w = lo ∧ hiByte w = hi := by
  constructor
  · rintro rfl
    exact ⟨loByte_wordOf lo hi, hiByte_wordOf lo hi⟩
  · rintro ⟨rfl, rfl⟩
    exact (wordOf_bytes w).symm

theorem resultDecode_modeIl (il c f ok : Bool) : (resultDecode il c f ok).getLsbD 0 = il := by
  revert il c f ok; decide

theorem resultDecode_csumOk (il c f ok : Bool) : (resultDecode il c f ok).getLsbD 1 = c := by
  revert il c f ok; decide

theorem resultDecode_footerOk (il c f ok : Bool) : (resultDecode il c f ok).getLsbD 2 = f := by
  revert il c f ok; decide

theorem resultDecode_serOk (il c f ok : Bool) : (resultDecode il c f ok).getLsbD 5 = false := by
  revert il c f ok; decide

theorem reportOf_csumOk_iff (il : Bool) (d : List Byte) (s : State) : (reportOf il d s).result.getLsbD 1 = true ↔
    loByte (checksum (d.take 6)) = d.getD 6 0 ∧ hiByte (checksum (d.take 6)) = d.getD 7 0 := by
  have hbit : (reportOf il d s).result.getLsbD 1 = (checksum (d.take 6) == wordOf (d.getD 6 0) (d.getD 7 0)) :=
    resultDecode_csumOk _ _ _ _
  rw [hbit, beq_iff_eq, eq_wordOf_iff]

theorem reportOf_footerOk_iff (il : Bool) (d : List Byte) (s : State) :
    (reportOf il d s).result.getLsbD 2 = true ↔ d.drop 24 = footer := by
  have hbit : (reportOf il d s).result.getLsbD 2 = (d.drop 24 == footer) := resultDecode_footerOk _ _ _ _
  rw [hbit, beq_iff_eq]

theorem reportOf_stored (il : Bool) (d : List Byte) (s : State) :
    (reportOf il d s).storedLo = d.getD 6 0 ∧ (reportOf il d s).storedHi = d.getD 7 0 :=
  ⟨loByte_wordOf _ _, hiByte_wordOf _ _⟩

/-- A digit of DIG_OUT in the report. -/
theorem regAt_reportOf_digit (il : Bool) (d : List Byte) (s : State) (hi : i < 12) :
    regAt (0x20 + i) (completeCmd (reportOf il d s)) = ((blockDigits (d.take 6)).getD i 0).toNat := by
  rw [regAt_digOut _ i hi]
  exact setDigits_digit _ s i hi

theorem memRead_reportOf_footer (il : Bool) (d : List Byte) (s : State) {k : Nat} (hk : k < 8) :
    memRead (addrAt 0x30 k) (completeCmd (reportOf il d s)) = d.getD (24 + k) 0 := by
  rw [memRead_footerOut _ k hk]
  simp [reportOf, List.getD_eq_getElem?_getD]

theorem reportOf_completes (il : Bool) (d : List Byte) (s : State) :
    CompletedWriting ReportRegs s (completeCmd (reportOf il d s)) :=
  completedWriting rfl rfl (reportWrites_frame _ _ _ _ _ s) ⟨rfl, rfl, rfl, rfl⟩

theorem reportOf_endsOk (il : Bool) (d : List Byte) (s : State) : EndsOk s (completeCmd (reportOf il d s)) :=
  endsOk_completeCmd rfl rfl

/-- The report's bits that depend on no image: the mode, and what 10_state.md R27 and 43_rom_image.md R184 fix. -/
theorem reportOf_result_bits (il : Bool) (d : List Byte) (s : State) :
    (reportOf il d s).result.getLsbD 0 = il ∧
      (reportOf il d s).result.getLsbD 3 =
        ((reportOf il d s).result.getLsbD 1 && (reportOf il d s).result.getLsbD 2) ∧
      (reportOf il d s).result.getLsbD 5 = false ∧ (reportOf il d s).result.getLsbD 6 = false ∧
      (reportOf il d s).result.getLsbD 7 = false := by
  obtain ⟨hlt, hvalid, _⟩ := resultBits_decode il (checksum (d.take 6) == wordOf (d.getD 6 0) (d.getD 7 0))
    (d.drop 24 == footer) (digitsOk (blockDigits (d.take 6)))
  exact ⟨resultDecode_modeIl _ _ _ _, hvalid, resultDecode_serOk _ _ _ _,
    getLsbD_of_toNat_lt hlt le_rfl, getLsbD_of_toNat_lt hlt (by decide)⟩

theorem blockDigits_take_length (hd : d.length = 32) : (blockDigits (d.take 6)).length = 12 := by
  simp [blockDigits_length, hd]

/-- BCD_OK, read off DIG_OUT. -/
theorem reportOf_bcdOk_iff (hd : d.length = 32) (il : Bool) (s : State) :
    (reportOf il d s).result.getLsbD 4 = true ↔
      ∀ i, i < 12 → regAt (0x20 + i) (completeCmd (reportOf il d s)) ≤ 9 := by
  obtain ⟨_, _, hbcd⟩ := resultBits_decode il (checksum (d.take 6) == wordOf (d.getD 6 0) (d.getD 7 0))
    (d.drop 24 == footer) (digitsOk (blockDigits (d.take 6)))
  have hbit : (reportOf il d s).result.getLsbD 4 = digitsOk (blockDigits (d.take 6)) := hbcd
  have hlen := blockDigits_take_length hd
  rw [hbit, digitsOk_iff, ← hlen]
  refine forall₂_congr fun i hi => ?_
  rw [regAt_reportOf_digit il d s (by omega), List.getElem_eq_getD 0]

/-- The digits of DIG_OUT: two to a byte of the block, the last byte first (40_bcd.md R103). -/
theorem regAt_reportOf_digits (hd : d.length = 32) (il : Bool) (s : State) {j : Nat} (hj : j < 6) :
    regAt (0x20 + 2 * j) (completeCmd (reportOf il d s)) = (d.getD (5 - j) 0).toNat / 16 ∧
      regAt (0x20 + (2 * j + 1)) (completeCmd (reportOf il d s)) = (d.getD (5 - j) 0).toNat % 16 := by
  have hlen : (d.take 6).length = 6 := by simp [hd]
  obtain ⟨hhi, hlo⟩ := blockDigits_getElem (d.take 6) j (by omega)
  rw [List.getElem_eq_getD 0] at hhi hlo
  have hbyte : (d.take 6)[(d.take 6).length - 1 - j] = d.getD (5 - j) 0 := by
    rw [List.getElem_take, List.getElem_eq_getD 0, hlen]
  rw [regAt_reportOf_digit il d s (by omega), regAt_reportOf_digit il d s (by omega), hhi, hlo, hbyte, hiNibble_toNat,
    loNibble_toNat]
  exact ⟨rfl, rfl⟩

/-- Settles O28: the report reads the data bytes of the input at the offsets of 43_rom_image.md R183. -/
theorem decodeReportsTheImage : Obligations.DecodeReportsTheImage := by
  unfold Obligations.DecodeReportsTheImage
  refine ⟨decodeByte_encode .decode, fun s il hil hlen => ?_⟩
  have hlen : s.inLen.toNat = imageBytes il := hlen
  have hx := exec_decode_image (isInterleaved_eq_of_detected hil) hlen
  have hd := unfill_inputList_length hlen
  have hbyte (i : Nat) (hi : i < 32) := unfill_inputList_getD hlen hi
  generalize unfill il (inputList s) = d at hx hd hbyte
  have hblock : d.take 6 = dataBlock il s := by
    rw [take_eq_map_getD (by omega)]
    refine List.map_congr_left fun i hi => hbyte i ?_
    have := List.mem_range.1 hi
    omega
  obtain ⟨hmode, hvalid, h5, h6, h7⟩ := reportOf_result_bits il d s
  obtain ⟨hlo, hhi⟩ := reportOf_stored il d s
  refine ⟨_, hx, hmode, ?_, ?_, hvalid, reportOf_bcdOk_iff hd il s, h5, h6, h7, ?_, ?_,
    hlo.trans (hbyte 6 (by omega)), hhi.trans (hbyte 7 (by omega)), fun j hj => ?_, fun k hk => ?_,
    reportOf_completes il d s⟩
  · have hcsum := reportOf_csumOk_iff il d s
    rwa [← hlo, ← hhi] at hcsum
  · refine (reportOf_footerOk_iff il d s).trans ((drop_footer_iff hd).trans (forall₂_congr fun k hk => ?_))
    rw [hbyte _ (by omega)]
  · rw [← hblock]
    exact loByte_toNat _
  · rw [← hblock]
    exact hiByte_toNat _
  · rw [← hbyte _ (by omega)]
    exact regAt_reportOf_digits hd il s hj
  · rw [← hbyte _ (by omega)]
    exact memRead_reportOf_footer il d s hk

/-! ## Copies 2 and 3 -/

/-- The report reads data bytes 0 to 7 and 24 to 31 only (43_rom_image.md R185). -/
theorem reportOf_congr (hd : d.length = 32) (hd' : d'.length = 32)
    (h : ∀ i, i < 32 → i < 8 ∨ 24 ≤ i → d'.getD i 0 = d.getD i 0) (il : Bool) (s : State) :
    reportOf il d' s = reportOf il d s := by
  have htake : d'.take 6 = d.take 6 := by
    rw [take_eq_map_getD (by omega), take_eq_map_getD (by omega)]
    refine List.map_congr_left fun i hi => ?_
    have := List.mem_range.1 hi
    exact h i (by omega) (by omega)
  have hdrop : d'.drop 24 = d.drop 24 := by
    refine List.ext_getElem (by simp [hd, hd']) fun i h1 h2 => ?_
    rw [List.length_drop] at h2
    rw [List.getElem_drop, List.getElem_drop, List.getElem_eq_getD 0, List.getElem_eq_getD 0]
    exact h _ (by omega) (by omega)
  simp only [reportOf, htake, hdrop, h 6 (by omega) (by omega), h 7 (by omega) (by omega)]

/-- `complete()` carries a difference in registers other than STATUS to no other register. -/
theorem completeCmd_congr {P : Nat → Prop} {s s' : State} (h : SameExcept P s s') (hP : ¬ P 0x01) :
    SameExcept P (completeCmd s) (completeCmd s') := by
  intro a ha
  by_cases h1 : a.toNat = 0x01
  · obtain rfl : a = 0x01#8 := BitVec.eq_of_toNat_eq h1
    exact congrArg statusCompleted (h 0x01#8 hP)
  · rw [completeCmd_frame s' a h1, completeCmd_frame s a h1, h a ha]

/-- Settles O30: the data bytes outside copies 2 and 3 agree, so both states get one report. -/
theorem decodeReadsOnlyTheFirstCopy : Obligations.DecodeReadsOnlyTheFirstCopy := by
  unfold Obligations.DecodeReadsOnlyTheFirstCopy
  intro s s' il hil hil' hlen hsame
  have hlen : s.inLen.toNat = imageBytes il := hlen
  have hP (n : Nat) (hn : n ≤ 0x40) : ¬ (0x40 + dataOffset il 8 ≤ n ∧ n < 0x40 + dataOffset il 24) := by
    have : dataOffset il 0 < dataOffset il 8 := dataOffset_lt il (by decide)
    omega
  have hsame : SameExcept (fun n => 0x40 + dataOffset il 8 ≤ n ∧ n < 0x40 + dataOffset il 24) s s' := hsame
  have hin : s'.inLen = s.inLen := hsame 0x05#8 (hP _ (by decide))
  have hlen' : s'.inLen.toNat = imageBytes il := by rw [hin, hlen]
  have hdata (i : Nat) (hi : i < 32) (h : i < 8 ∨ 24 ≤ i) : dataByte il s' i = dataByte il s i := by
    refine hsame (addrAt 0x40 (dataOffset il i)) ?_
    have hoff : dataOffset il i < dataOffset il 32 := dataOffset_lt il hi
    have h64 := imageBytes_le il
    rw [imageBytes_eq_dataOffset] at h64
    have haddr : (addrAt 0x40 (dataOffset il i)).toNat = 0x40 + dataOffset il i := by
      rw [addrAt, BitVec.toNat_ofNat, Nat.mod_eq_of_lt (by omega)]
    rw [haddr]
    rcases h with h | h
    · have := dataOffset_lt il h
      omega
    · have := dataOffset_le il h
      omega
  have hreport : reportOf il (unfill il (inputList s')) s' = reportOf il (unfill il (inputList s)) s' :=
    reportOf_congr (unfill_inputList_length hlen) (unfill_inputList_length hlen') (fun i hi h => by
      rw [unfill_inputList_getD hlen' hi, unfill_inputList_getD hlen hi, hdata i hi h]) il s'
  have hmode := isInterleaved_eq_of_detected hil
  refine ⟨_, _, exec_decode_image hmode hlen,
    exec_decode_image (isInterleaved_eq_of_detected hil') hlen', completeCmd_congr ?_ (hP _ (by decide))⟩
  have himg := (inputList_length s).trans hlen
  rw [hreport, ← decodeReport_eq il _ s himg hmode, ← decodeReport_eq il _ s' himg hmode]
  exact (CommandWrites.report il (inputList s)).congr hsame

/-! ## The plain image, byte by byte -/

theorem rep3_getD (hx : x.length = p) (hi : i < 3 * p) : (rep3 x).getD i 0 = x.getD (i % p) 0 := by
  unfold rep3
  by_cases h1 : i < p
  · rw [List.getD_append _ _ _ _ (by simp; omega), List.getD_append _ _ _ _ (by omega), Nat.mod_eq_of_lt h1]
  · by_cases h2 : i < 2 * p
    · rw [List.getD_append _ _ _ _ (by simp; omega), List.getD_append_right _ _ _ _ (by omega), hx,
        Nat.mod_eq_sub_mod (by omega), Nat.mod_eq_of_lt (by omega)]
    · rw [List.getD_append_right _ _ _ _ (by simp; omega), List.length_append, hx, Nat.mod_eq_sub_mod (by omega),
        Nat.mod_eq_sub_mod (by omega), Nat.mod_eq_of_lt (by omega), Nat.sub_sub]

/-- A byte of the first 24 of a plain image is one of the Sequence (43_rom_image.md R172). -/
theorem plainImage_getD_copy (hb : blk.length = 6) (hi : i < 24) :
    (plainImage blk).getD i 0 = (blk ++ checksumBytes (checksum blk)).getD (i % 8) 0 := by
  have hseq : (blk ++ checksumBytes (checksum blk)).length = 8 := by simp [hb, checksumBytes]
  have hlen : (rep3 (blk ++ checksumBytes (checksum blk))).length = 24 := by simp [rep3, hb, checksumBytes]
  rw [plainImage, List.getD_append _ _ _ _ (by omega), rep3_getD hseq (by omega)]

theorem plainImage_drop (hb : blk.length = 6) : (plainImage blk).drop 24 = footer :=
  List.drop_left' (by simp [rep3, checksumBytes, hb])

theorem plainImage_take (hb : blk.length = 6) : (plainImage blk).take 6 = blk := by
  simp [plainImage, rep3, hb]

theorem plainImage_length_six (hb : blk.length = 6) : (plainImage blk).length = 32 := by
  rw [plainImage_length, hb]

theorem plainImage_csum (hb : blk.length = 6) :
    (plainImage blk).getD 6 0 = loByte (checksum blk) ∧ (plainImage blk).getD 7 0 = hiByte (checksum blk) := by
  rw [plainImage_getD_copy hb (by decide), plainImage_getD_copy hb (by decide),
    List.getD_append_right _ _ _ _ (by omega), List.getD_append_right _ _ _ _ (by omega), hb]
  exact ⟨rfl, rfl⟩

theorem plainImage_footer (hb : blk.length = 6) {k : Nat} (hk : k < 8) :
    (plainImage blk).getD (24 + k) 0 = footerByte k :=
  (drop_footer_iff (plainImage_length_six hb)).1 (plainImage_drop hb) k hk

theorem serialChecksum_eq (h : SerialOk s) : serialChecksum s = checksum (bcdBlock s) := by
  rw [serialChecksum, bcdBlock_eq h]

/-- The plain image of a valid serial is the one of R172's table. -/
theorem plainImage_bcdBlock_getD (h : SerialOk s) (hi : i < 32) :
    (plainImage (bcdBlock s)).getD i 0 = plainImageByte s i := by
  have hb := bcdBlock_length h
  unfold plainImageByte
  rw [serialChecksum_eq h]
  split
  · next h24 =>
    rw [plainImage_getD_copy hb h24]
    split
    · next h6 => rw [List.getD_append _ _ _ _ (by omega), bcdBlock_getD h _ h6]
    · split
      · next h6 => rw [h6, List.getD_append_right _ _ _ _ (by omega), hb, ← loByte_eq]; rfl
      · next h6 h7 =>
        obtain h7 : i % 8 = 7 := by omega
        rw [h7, List.getD_append_right _ _ _ _ (by omega), hb, ← hiByte_eq]
        rfl
  · next h24 =>
    obtain ⟨k, rfl⟩ := Nat.exists_eq_add_of_le (not_lt.1 h24)
    rw [plainImage_footer hb (by omega), Nat.add_sub_cancel_left]

/-! ## The image of either mode -/

/-- The image ENCODE builds of a block, by its EMU bit. -/
def imageOf (emu : Bool) (blk : List Byte) : List Byte := if emu then interleavedImage blk else plainImage blk

theorem unfill_imageOf (emu : Bool) (blk : List Byte) : unfill emu (imageOf emu blk) = plainImage blk := by
  cases emu
  · rfl
  · exact (congrArg deinterleave (interleavedImage_eq blk)).trans (deinterleave_interleave _)

theorem imageOf_length (hb : blk.length = 6) (emu : Bool) : (imageOf emu blk).length = imageBytes emu := by
  cases emu
  · exact plainImage_length_six hb
  · exact (congrArg List.length (interleavedImage_eq blk)).trans
      ((interleave_length _).trans (congrArg (2 * ·) (plainImage_length_six hb)))

theorem isInterleaved_imageOf (hb : blk.length = 6) (emu : Bool) : isInterleaved (imageOf emu blk) = emu := by
  cases emu
  · exact isInterleaved_plainImage hb
  · exact isInterleaved_interleavedImage blk

/-- Data byte `i` of an image is byte `i` of the plain image. -/
theorem imageOf_getD (emu : Bool) (blk : List Byte) (i : Nat) :
    (imageOf emu blk).getD (dataOffset emu i) 0 = (plainImage blk).getD i 0 := by
  rw [← unfill_getD, unfill_imageOf]

/-! ## ENCODE -/

/-- ENCODE, by its EMU bit. -/
def encodeInstr (emu : Bool) : Instr := if emu then .encodeEmu else .encodePlain

/-- What an ENCODE that completes writes. -/
def encoded (emu : Bool) (s : State) : State :=
  setCsum (checksum (bcdBlock s)) (setOut (imageOf emu (bcdBlock s)) s)

theorem exec_encode_valid (h : SerialOk s) (emu : Bool) :
    exec (encodeInstr emu) s = .next (completeCmd (encoded emu s)) := by
  cases emu <;> exact if_pos ((serialValid_iff s).2 h)

theorem exec_encode_invalid (h : ¬ SerialOk s) (emu : Bool) :
    exec (encodeInstr emu) s = .next (raiseCmdError .validation s) := by
  cases emu <;> exact if_neg (mt (serialValid_iff s).1 h)

theorem encoded_outLen (h : SerialOk s) (emu : Bool) :
    memRead 0x06 (completeCmd (encoded emu s)) = BitVec.ofNat 8 (imageBytes emu) := by
  rw [← imageOf_length (bcdBlock_length h)]
  rfl

theorem encoded_outBuf (emu : Bool) (s : State) {k : Nat} (hk : k < 64) :
    memRead (addrAt 0x80 k) (completeCmd (encoded emu s)) = (imageOf emu (bcdBlock s)).getD k 0 := by
  rw [memRead_outBuf _ k hk]
  exact fillBytes_getElem 64 _ k hk

theorem encoded_csum (h : SerialOk s) (emu : Bool) :
    regAt 0x08 (completeCmd (encoded emu s)) = (serialChecksum s).toNat % 256 ∧
      regAt 0x09 (completeCmd (encoded emu s)) = (serialChecksum s).toNat / 256 := by
  rw [serialChecksum_eq h]
  exact regAt_completed_setCsum _ _

theorem encoded_completes (emu : Bool) (s : State) :
    CompletedWriting (fun n => OutRegs n ∨ CsumRegs n) s (completeCmd (encoded emu s)) :=
  completedWriting rfl rfl (((setOut_frame _ s).mono fun _ => .inl).trans ((setCsum_frame _ _).mono fun _ => .inr))
    ⟨rfl, rfl, rfl, rfl⟩

/-- Settles O26: the image ENCODE writes has the bytes of R172's table at its data offsets, and 0x00 elsewhere. -/
theorem encodeWritesTheImage : Obligations.EncodeWritesTheImage := by
  unfold Obligations.EncodeWritesTheImage
  refine ⟨decodeByte_encode .encodePlain, decodeByte_encode .encodeEmu, fun s => ⟨fun h => ?_, fun h => ?_,
    fun h => ⟨⟨_, exec_encode_invalid h false, refusedWith_raise .validation s⟩,
      _, exec_encode_invalid h true, refusedWith_raise .validation s⟩⟩⟩
  · have hlen := imageOf_length (bcdBlock_length h) false
    obtain ⟨hlo, hhi⟩ := encoded_csum h false
    refine ⟨_, exec_encode_valid h false, encoded_outLen h false, fun i hi => ?_, fun i h32 h64 => ?_, hlo, hhi,
      encoded_completes false s⟩
    · rw [encoded_outBuf false s (by omega), ← plainImage_bcdBlock_getD h hi]
      exact imageOf_getD false _ i
    · rw [encoded_outBuf false s h64]
      exact List.getD_eq_default _ _ (hlen.trans_le h32)
  · obtain ⟨hlo, hhi⟩ := encoded_csum h true
    refine ⟨_, exec_encode_valid h true, encoded_outLen h true, fun i hi => ⟨?_, ?_⟩, hlo, hhi,
      encoded_completes true s⟩
    · rw [encoded_outBuf true s (by omega), ← plainImage_bcdBlock_getD h hi]
      exact imageOf_getD true _ i
    · obtain ⟨_, hfill⟩ := interleave_getD (plainImage (bcdBlock s)) i
      rw [← interleavedImage_eq] at hfill
      exact (encoded_outBuf true s (by omega)).trans hfill

/-! ## ENCODE, then DECODE -/

theorem inputList_acceptCommand (h : s.inLen.toNat ≤ 64) (c : Byte) :
    inputList (acceptCommand c s) = inputList s := by
  rw [← inputBytes_eq h, ← inputBytes_eq (s := acceptCommand c s) h]
  rfl

theorem resultDecode_allOk (il : Bool) :
    resultDecode il true true true = if il then 0b00011111 else 0b00011110 := by
  revert il; decide

/-- The report on an image of a valid serial: every verdict 1, the serial's digits, and its checksum twice. -/
theorem reportOf_plainImage_result (h : SerialOk s) (emu : Bool) (u : State) :
    (reportOf emu (plainImage (bcdBlock s)) u).result = if emu then 0b00011111 else 0b00011110 := by
  have hb := bcdBlock_length h
  obtain ⟨hlo, hhi⟩ := plainImage_csum hb
  have hbits : (reportOf emu (plainImage (bcdBlock s)) u).result = resultDecode emu true true true := by
    simp only [reportOf, setFooterOut_result, setDigits_result, setStored_result, setCsum_result, setResult_result,
      plainImage_take hb, plainImage_drop hb, hlo, hhi, wordOf_bytes, digitsOk_bcdBlock h, beq_self_eq_true]
  rw [hbits, resultDecode_allOk]

theorem reportOf_plainImage_digit (h : SerialOk s) (emu : Bool) (u : State) {j : Nat} (hj : j < 12) :
    regAt (0x20 + j) (completeCmd (reportOf emu (plainImage (bcdBlock s)) u)) = serialDigit s j := by
  obtain ⟨_, h12, _⟩ := id h
  have hlen := paddedDigits_length h12
  rw [regAt_reportOf_digit _ _ _ hj, plainImage_take (bcdBlock_length h), digits_bcdBlock h,
    ← paddedDigits_getElem h j (by omega), List.getElem_eq_getD 0]

/-- DECODE of an input that is a given image of its mode's length. -/
theorem exec_decode_of_inputList {img : List Byte} (hin : inputList u = img) (hil : isInterleaved img = il)
    (hlen : img.length = imageBytes il) :
    exec .decode u = .next (completeCmd (reportOf il (unfill il img) u)) := by
  subst hin
  exact exec_decode_image hil (by rw [← inputList_length, hlen])

/-- An input whose length is the OUT_LEN and whose bytes are the OUT_BUF of an ENCODE is the image it built. -/
theorem inputList_of_encoded (h : SerialOk s) (hlen : memRead 0x05 u = memRead 0x06 (completeCmd (encoded emu s)))
    (hbuf : ∀ i, i < regAt 0x06 (completeCmd (encoded emu s)) →
      memRead (addrAt 0x40 i) u = memRead (addrAt 0x80 i) (completeCmd (encoded emu s))) :
    inputList u = imageOf emu (bcdBlock s) := by
  have h64 := imageBytes_le emu
  have himg := imageOf_length (bcdBlock_length h) emu
  have hout : regAt 0x06 (completeCmd (encoded emu s)) = imageBytes emu :=
    (congrArg BitVec.toNat (encoded_outLen h emu)).trans (Nat.mod_eq_of_lt (by omega))
  have hin : u.inLen.toNat = imageBytes emu := (congrArg BitVec.toNat hlen).trans hout
  refine List.ext_getElem (by rw [inputList_length, himg, hin]) fun i h1 _ => ?_
  rw [inputList_length] at h1
  rw [List.getElem_eq_getD 0, List.getElem_eq_getD 0, inputList_getD h1, hbuf i (by omega),
    encoded_outBuf emu s (by omega)]

/-- Settles O31: the data bytes of the image copied are the plain image, on which every verdict is 1. -/
theorem encodeThenDecodeRoundTrips : Obligations.EncodeThenDecodeRoundTrips := by
  unfold Obligations.EncodeThenDecodeRoundTrips
  intro s t u emu h hx hlen hbuf
  have hb := bcdBlock_length h
  obtain rfl : completeCmd (encoded emu s) = t := by simpa using (exec_encode_valid h emu).symm.trans hx
  have himg := inputList_of_encoded h hlen hbuf
  have hlen64 : u.inLen.toNat ≤ 64 := by
    rw [← inputList_length, himg, imageOf_length hb]
    exact imageBytes_le emu
  rw [← inputList_acceptCommand hlen64 (encode .decode)] at himg
  obtain ⟨_, _, hnoErr, _⟩ := acceptCommand_flags (encode .decode) u
  have hcode := acceptCommand_errcode u (encode .decode)
  generalize acceptCommand (encode .decode) u = a at himg hnoErr hcode
  have hdec := exec_decode_of_inputList himg (isInterleaved_imageOf hb emu) (imageOf_length hb emu)
  rw [unfill_imageOf] at hdec
  obtain ⟨hlo, hhi⟩ := plainImage_csum hb
  obtain ⟨hstLo, hstHi⟩ := reportOf_stored emu (plainImage (bcdBlock s)) a
  obtain ⟨⟨_, _, herr, _⟩, herrcode⟩ := reportOf_endsOk emu (plainImage (bcdBlock s)) a
  have hblk := plainImage_take hb
  exact ⟨_, hdec, herr.trans hnoErr, herrcode.trans hcode, reportOf_plainImage_result h emu a,
    fun j hj => reportOf_plainImage_digit h emu a hj, congrArg (fun b => loByte (checksum b)) hblk,
    congrArg (fun b => hiByte (checksum b)) hblk, hstLo.trans hlo, hstHi.trans hhi⟩

/-! ## Images tampered with -/

/-- A flipped bit changes the byte. -/
theorem xor_twoPow_ne (a : Byte) {k : Nat} (hk : k < 8) : a ^^^ BitVec.twoPow 8 k ≠ a := by
  intro h
  have hbit := congrArg (BitVec.getLsbD · k) h
  simp [hk] at hbit

theorem getD_set_self (hi : i < x.length) : (x.set i b).getD i 0 = b := by
  simp [List.getD_eq_getElem?_getD, hi]

theorem getD_set_ne {j : Nat} (hne : i ≠ j) : (x.set i b).getD j 0 = x.getD j 0 := by
  simp [List.getD_eq_getElem?_getD, hne]

/-- Of the footer's odd-indexed bytes two are left when one byte changes (43_rom_image.md R190). -/
theorem isInterleaved_plainImage_set (hb : blk.length = 6) (p : Nat) (b : Byte) :
    isInterleaved ((plainImage blk).set p b) = false := by
  have hlen : ((plainImage blk).set p b).length = 32 := by rw [List.length_set, plainImage_length_six hb]
  have hbyte (k : Nat) (hk : k < 8) (hp : p ≠ 24 + k) :
      ((plainImage blk).set p b).getD (24 + k) 0 = footerByte k := by
    rw [getD_set_ne hp, plainImage_footer hb hk]
  by_cases hp : p = 25
  · refine isInterleaved_eq_false (i := 24 + 3) (by omega) rfl ?_
    rw [hbyte 3 (by decide) (by omega)]
    decide
  · refine isInterleaved_eq_false (i := 24 + 1) (by omega) rfl ?_
    rw [hbyte 1 (by decide) hp]
    decide

/-- A change at an even offset is no matter of the mode. -/
theorem isInterleaved_set_even (h : isInterleaved x = true) (i : Nat) (b : Byte) :
    isInterleaved (x.set (2 * i) b) = true := by
  rw [isInterleaved_iff] at h ⊢
  intro j hj hodd
  rw [List.length_set] at hj
  rw [getD_set_ne (by omega), h j hj hodd]

/-- An image of which one data byte is changed keeps its mode. -/
theorem isInterleaved_imageOf_set (hb : blk.length = 6) (emu : Bool) (p : Nat) (b : Byte) :
    isInterleaved ((imageOf emu blk).set (dataOffset emu p) b) = emu := by
  cases emu
  · exact isInterleaved_plainImage_set hb p b
  · exact isInterleaved_set_even (isInterleaved_imageOf hb true) p b

theorem exec_decode_tampered (hb : blk.length = 6)
    (hin : inputList u = (imageOf emu blk).set (dataOffset emu p) b) :
    exec .decode u = .next (completeCmd (reportOf emu ((plainImage blk).set p b) u)) := by
  have hdec := exec_decode_of_inputList hin (isInterleaved_imageOf_set hb emu p b)
    ((List.length_set ..).trans (imageOf_length hb emu))
  rwa [unfill_set, unfill_imageOf] at hdec

theorem plainImage_set_take (hb : blk.length = 6) (hp : 6 ≤ p) : ((plainImage blk).set p b).take 6 = blk := by
  rw [List.take_set_of_le hp, plainImage_take hb]

theorem tampered_footerOk (hb : blk.length = 6) (hp : p < 24) (u : State) :
    (completeCmd (reportOf emu ((plainImage blk).set p b) u)).result.getLsbD 2 = true := by
  rw [completeCmd_result, reportOf_footerOk_iff, List.drop_set_of_lt hp, plainImage_drop hb]

/-- A changed byte of the stored checksum no longer matches the block's. -/
theorem tampered_csum_mismatch (hb : blk.length = 6) (hp : p = 6 ∨ p = 7) (hne : b ≠ (plainImage blk).getD p 0)
    (u : State) : (completeCmd (reportOf emu ((plainImage blk).set p b) u)).result.getLsbD 1 = false := by
  have hlen := plainImage_length_six hb
  obtain ⟨hlo, hhi⟩ := plainImage_csum hb
  rw [← Bool.not_eq_true, completeCmd_result, reportOf_csumOk_iff, plainImage_set_take hb (by omega)]
  rintro ⟨heqLo, heqHi⟩
  rcases hp with rfl | rfl
  · rw [getD_set_self (by omega), ← hlo] at heqLo
    exact hne heqLo.symm
  · rw [getD_set_self (by omega), ← hhi] at heqHi
    exact hne heqHi.symm

/-- A bit of copy 1's stored checksum flipped, in either mode. -/
theorem exec_decode_csum_bit_flipped {k : Nat} (hb : blk.length = 6) (hp : p = 6 ∨ p = 7) (hk : k < 8)
    (hin : inputList u = (imageOf emu blk).set (dataOffset emu p)
      ((imageOf emu blk).getD (dataOffset emu p) 0 ^^^ BitVec.twoPow 8 k)) :
    ∃ v, exec .decode u = .next v ∧ EndsOk u v ∧ v.result.getLsbD 1 = false ∧ v.result.getLsbD 2 = true := by
  rw [imageOf_getD] at hin
  exact ⟨_, exec_decode_tampered hb hin, reportOf_endsOk .., tampered_csum_mismatch hb hp (xor_twoPow_ne _ hk) u,
    tampered_footerOk hb (by omega) u⟩

theorem tampered_csumOk (hb : blk.length = 6) (hp : 8 ≤ p) (u : State) :
    (completeCmd (reportOf emu ((plainImage blk).set p b) u)).result.getLsbD 1 = true := by
  obtain ⟨hlo, hhi⟩ := plainImage_csum hb
  rw [completeCmd_result, reportOf_csumOk_iff, plainImage_set_take hb (by omega), getD_set_ne (by omega),
    getD_set_ne (by omega)]
  exact ⟨hlo.symm, hhi.symm⟩

theorem tampered_footer_mismatch (hb : blk.length = 6) {k : Nat} (hk : k < 8) (hne : b ≠ footerByte k) (u : State) :
    (completeCmd (reportOf emu ((plainImage blk).set (24 + k) b) u)).result.getLsbD 2 = false := by
  have hlen := plainImage_length_six hb
  rw [← Bool.not_eq_true, completeCmd_result, reportOf_footerOk_iff, drop_footer_iff (by rw [List.length_set, hlen])]
  intro hall
  exact hne ((getD_set_self (by omega)).symm.trans (hall k hk))

/-- A footer byte changed, in either mode. -/
theorem exec_decode_footer_changed {k : Nat} (hb : blk.length = 6) (hk : k < 8) (hne : b ≠ footerByte k)
    (hin : inputList u = (imageOf emu blk).set (dataOffset emu (24 + k)) b) :
    ∃ v, exec .decode u = .next v ∧ EndsOk u v ∧ v.result.getLsbD 1 = true ∧ v.result.getLsbD 2 = false :=
  ⟨_, exec_decode_tampered hb hin, reportOf_endsOk .., tampered_csumOk hb (by omega) u,
    tampered_footer_mismatch hb hk hne u⟩

/-! ## Images that no longer are one of their mode -/

/-- An input whose length fits the buffer and not its mode ends with FORMAT. -/
theorem exec_decode_format_of_inputList {img : List Byte} (hin : inputList u = img) (h64 : img.length ≤ 64)
    (hil : isInterleaved img = il) (hlen : img.length ≠ imageBytes il) :
    exec .decode u = .next (raiseCmdError .format (decodeFormat il u)) := by
  subst hin
  rw [inputList_length] at h64 hlen
  exact exec_decode_format h64 hil hlen

theorem isInterleaved_set_odd (hp : p < x.length) (hodd : p % 2 = 1) (hb : b ≠ 0) :
    isInterleaved (x.set p b) = false :=
  isInterleaved_eq_false (by rwa [List.length_set]) hodd (by rwa [getD_set_self hp])

/-- A bit at an odd offset of an interleaved image flipped: the input is plain, and 64 bytes are too many for it. -/
theorem exec_decode_odd_bit_flipped {k : Nat} (hb : blk.length = 6) (hodd : p % 2 = 1) (hp : p < 64) (hk : k < 8)
    (hin : inputList u = (imageOf true blk).set p ((imageOf true blk).getD p 0 ^^^ BitVec.twoPow 8 k)) :
    exec .decode u = .next (raiseCmdError .format (decodeFormat false u)) := by
  have hlen : (imageOf true blk).length = 64 := imageOf_length hb true
  have hzero := (isInterleaved_iff _).1 (isInterleaved_imageOf hb true) p (by omega) hodd
  have hne := xor_twoPow_ne 0 hk
  rw [hzero] at hin
  refine exec_decode_format_of_inputList hin ?_ (isInterleaved_set_odd (by omega) hodd hne) ?_
  · rw [List.length_set, hlen]
  · rw [List.length_set, hlen]
    decide

theorem isInterleaved_take (h : isInterleaved x = true) (m : Nat) : isInterleaved (x.take m) = true := by
  rw [isInterleaved_iff] at h ⊢
  intro i hi hodd
  rw [List.length_take, lt_min_iff] at hi
  obtain ⟨hm, hx⟩ := hi
  rw [List.getD_eq_getElem?_getD, List.getElem?_take_of_lt hm, ← List.getD_eq_getElem?_getD, h i hx hodd]

/-- A truncated image has neither mode's length: a plain one is too short for both, and an interleaved one stays
interleaved. -/
theorem imageOf_take_length_ne (hb : blk.length = 6) {m : Nat} (hm : m < (imageOf emu blk).length) :
    ((imageOf emu blk).take m).length ≠ imageBytes (isInterleaved ((imageOf emu blk).take m)) := by
  rw [List.length_take_of_le hm.le]
  rw [imageOf_length hb] at hm
  cases emu with
  | false =>
    have h32 (il : Bool) : imageBytes false ≤ imageBytes il := by revert il; decide
    exact (hm.trans_le (h32 _)).ne
  | true =>
    rw [isInterleaved_take (isInterleaved_imageOf hb true)]
    exact hm.ne

/-- An input with an image's length, mode, first copy and footer gets the image's report (43_rom_image.md R185). -/
theorem exec_decode_copies_changed (hb : blk.length = 6) (hlen : (inputList u).length = (imageOf emu blk).length)
    (hil : isInterleaved (inputList u) = emu)
    (hsame : ∀ i, i < (imageOf emu blk).length → i < dataOffset emu 8 ∨ dataOffset emu 24 ≤ i →
      (inputList u).getD i 0 = (imageOf emu blk).getD i 0) :
    exec .decode u = .next (completeCmd (reportOf emu (plainImage blk) u)) := by
  rw [imageOf_length hb] at hlen hsame
  rw [exec_decode_of_inputList rfl hil hlen, reportOf_congr (plainImage_length_six hb) (unfill_length hlen) ?_]
  intro i hi h
  rw [unfill_getD, ← imageOf_getD emu]
  refine hsame _ ?_ (h.imp (dataOffset_lt emu) (dataOffset_le emu))
  rw [imageBytes_eq_dataOffset]
  exact dataOffset_lt emu hi

/-- Settles O32: each way to tamper with an image of ENCODE, and the report or the error it gets. -/
theorem tamperedImagesGetTheirVerdicts : Obligations.TamperedImagesGetTheirVerdicts := by
  unfold Obligations.TamperedImagesGetTheirVerdicts
  intro s u emu img h himg
  obtain rfl : img = imageOf emu (bcdBlock s) := himg
  have hb := bcdBlock_length h
  have hlen := imageOf_length hb emu
  have h64 := imageBytes_le emu
  refine ⟨fun p k hp hk hin => exec_decode_csum_bit_flipped hb hp hk hin, ?_,
    fun k b hk hne hin => exec_decode_footer_changed hb hk hne hin, fun m hm hin => ?_, fun hl hil hsame => ?_⟩
  · rintro p k rfl hodd hp hk hin
    exact ⟨_, exec_decode_odd_bit_flipped hb hodd hp hk hin, endsErr_raise .format rfl, rfl⟩
  · have hle : ((imageOf emu (bcdBlock s)).take m).length ≤ 64 := (List.length_take_le' ..).trans (hlen.trans_le h64)
    exact ⟨_, exec_decode_format_of_inputList hin hle rfl (imageOf_take_length_ne hb hm), endsErr_raise .format rfl⟩
  · exact ⟨_, exec_decode_copies_changed hb hl hil hsame, reportOf_endsOk .., reportOf_plainImage_result h emu u⟩

end Sys2Proof.Machine

/-! SUPPORT. The errors: the statements of 60_exceptions.md. -/

namespace Sys2Proof.Machine

variable {s t : State}

/-! ## What an error leaves as it was -/

theorem not_statusRegs_of_resultRegs {n : Nat} (h : ResultRegs n) : ¬ StatusRegs n := by
  simp only [StatusRegs, ResultRegs, ReportRegs, CsumRegs, OutRegs] at h ⊢
  omega

/-- A command that ends in error raised it, and only DECODE's FORMAT made writes before (60_exceptions.md R223). -/
theorem exec_error_cases {i : Instr} (hs : s.err = false) (hx : exec i s = .next t) (ht : t.err = true) :
    (∃ e, t = raiseCmdError e s) ∨
      (i = .decode ∧ t = raiseCmdError .format (decodeFormat (isInterleaved (inputBytes s)) s)) := by
  obtain ⟨u, ⟨hst, hcode, _⟩, hok | ⟨rfl, hval | hlen⟩ | ⟨hi, rfl, hfmt⟩⟩ := exec_cases i s
  · obtain rfl : t = completeCmd u := by simpa [hok] using hx.symm
    obtain ⟨⟨_, _, herr, _⟩, _⟩ := endsOk_completeCmd hst hcode
    simp [herr, hs] at ht
  · exact .inl ⟨.validation, by simpa [hval] using hx.symm⟩
  · exact .inl ⟨.length, by simpa [hlen] using hx.symm⟩
  · exact .inr ⟨hi, by simpa [hfmt] using hx.symm⟩

/-- Settles O33: `raise` is a refusal with its code, and every error of a command but DECODE's FORMAT is a `raise` in the
state the command began in. -/
theorem errorsArePrecise : Obligations.ErrorsArePrecise := by
  unfold Obligations.ErrorsArePrecise
  refine ⟨fun e s => ?_, fun i s t hs hx ht => ?_⟩
  · cases e with
    | illegalCmd => exact refusedWith_raise .illegalCmd s
    | validation => exact refusedWith_raise .validation s
    | length => exact refusedWith_raise .length s
    | format => exact refusedWith_raise .format s
  · obtain ⟨e, rfl⟩ | ⟨hi, rfl⟩ := exec_error_cases hs hx ht
    · exact .inl fun a ha => raiseCmdError_frame e s a (not_statusRegs_of_resultRegs ha)
    · exact .inr ⟨hi, rfl, raise_decodeFormat_frame _ s⟩

/-! ## The error code of a command -/

/-- From ERR = 0 and ERRCODE = 0 a completion step ends with a code of at most 4, and with ERR = 1 exactly where the code
is not 0 (60_exceptions.md R220). -/
theorem Ended.errcode (h : Ended s t) (hs : s.err = false) (hc : s.errcode = 0) :
    t.errcode.toNat ≤ 4 ∧ (t.err = true ↔ t.errcode ≠ 0) := by
  obtain ⟨⟨⟨_, _, herr, _⟩, hcode⟩ | ⟨e, ⟨_, _, herr, _⟩, hcode⟩, _⟩ := h <;> rw [herr, hcode]
  · simp [hs, hc]
  · cases e <;> decide

/-- ENCODE checks the serial, whatever its EMU bit. -/
theorem exec_encode_errcode (hc : s.errcode = 0) (emu : Bool) :
    ∃ t, exec (encodeInstr emu) s = .next t ∧
      ((SerialOk s ∧ t.errcode.toNat = 0) ∨ (¬ SerialOk s ∧ t.errcode.toNat = 2)) := by
  by_cases h : SerialOk s
  · exact ⟨_, exec_encode_valid h emu, .inl ⟨h, congrArg BitVec.toNat hc⟩⟩
  · exact ⟨_, exec_encode_invalid h emu, .inr ⟨h, rfl⟩⟩

/-- The lengths DECODE accepts, by the mode it detects (43_rom_image.md R182). -/
theorem inLen_eq_imageBytes_iff (s : State) :
    s.inLen.toNat = imageBytes (isInterleaved (inputList s)) ↔
      (s.inLen.toNat = 64 ∧ DetectedIl s) ∨ (s.inLen.toNat = 32 ∧ ¬ DetectedIl s) := by
  rw [← isInterleaved_inputList_iff]
  cases isInterleaved (inputList s) <;> simp [imageBytes, ilImageBytes, plainImageBytes]

/-- DECODE checks LENGTH before FORMAT (60_exceptions.md R224). -/
theorem exec_decode_errcode (hc : s.errcode = 0) :
    ∃ t, exec .decode s = .next t ∧ ErrorCodeOf .decode s t.errcode.toNat := by
  have hok : s.errcode.toNat = 0 := congrArg BitVec.toNat hc
  rcases Nat.lt_or_ge 64 s.inLen.toNat with h64 | h64
  · exact ⟨_, exec_decode_over h64, .inl ⟨h64, rfl⟩⟩
  · by_cases hlen : s.inLen.toNat = imageBytes (isInterleaved (inputList s))
    · have hx := exec_decode_report rfl hlen
      rcases (inLen_eq_imageBytes_iff s).1 hlen with ⟨hl, hil⟩ | ⟨hl, hpl⟩
      · exact ⟨_, hx, .inr (.inl ⟨hl, hil, hok⟩)⟩
      · exact ⟨_, hx, .inr (.inr (.inl ⟨hl, hpl, hok⟩))⟩
    · obtain ⟨hil, hpl⟩ := not_or.1 (mt (inLen_eq_imageBytes_iff s).2 hlen)
      exact ⟨_, exec_decode_format h64 rfl hlen, .inr (.inr (.inr ⟨h64, hil, hpl, rfl⟩))⟩

/-- EVERY COMMAND'S ERROR CODE: with ERRCODE = 0 at its start, a command ends with the code of the first check of its own
that fails, and with 0 where none does (60_exceptions.md R224). -/
theorem exec_errcode (i : Instr) (hc : s.errcode = 0) :
    ∃ t, exec i s = .next t ∧ ErrorCodeOf i s t.errcode.toNat := by
  have hok : s.errcode.toNat = 0 := congrArg BitVec.toNat hc
  cases i with
  | validate => exact ⟨_, exec_validate s, hok⟩
  | bcdpack =>
    by_cases h : SerialOk s
    · exact ⟨_, exec_bcdpack_valid h, .inl ⟨h, hok⟩⟩
    · exact ⟨_, exec_bcdpack_invalid h, .inr ⟨h, rfl⟩⟩
  | bcdunpack =>
    by_cases h : s.inLen.toNat = 6
    · exact ⟨_, exec_bcdunpack_six h, .inl ⟨h, hok⟩⟩
    · exact ⟨_, exec_bcdunpack_other h, .inr ⟨h, rfl⟩⟩
  | csum =>
    by_cases h : 64 < s.inLen.toNat ∨ s.inLen.toNat % 2 ≠ 0
    · exact ⟨_, exec_csum_other h, .inr ⟨h, rfl⟩⟩
    · have h64 : s.inLen.toNat ≤ 64 := by omega
      have heven : s.inLen.toNat % 2 = 0 := by omega
      exact ⟨_, exec_csum_even h64 heven, .inl ⟨h64, heven, hok⟩⟩
  | ilv =>
    rcases Nat.lt_or_ge 32 s.inLen.toNat with h | h
    · exact ⟨_, exec_ilv_over h, .inr ⟨h, rfl⟩⟩
    · exact ⟨_, exec_ilv_fits h, .inl ⟨h, hok⟩⟩
  | dilv =>
    rcases Nat.lt_or_ge 64 s.inLen.toNat with h | h
    · exact ⟨_, exec_dilv_over h, .inr ⟨h, rfl⟩⟩
    · exact ⟨_, exec_dilv_fits h, .inl ⟨h, hok⟩⟩
  | encodePlain => exact exec_encode_errcode hc false
  | encodeEmu => exact exec_encode_errcode hc true
  | decode => exact exec_decode_errcode hc

/-- Settles O34: a byte that is no command raises ILLEGAL_CMD, and a command ends with the code of its own checks. -/
theorem errorCodesFollowTheTable : Obligations.ErrorCodesFollowTheTable := by
  unfold Obligations.ErrorCodesFollowTheTable
  intro s hb hs hc
  obtain ⟨t, hx, hend⟩ := engineStep_ended hb
  obtain ⟨hle, herr⟩ := hend.errcode hs hc
  refine ⟨t, hx, hle, herr, fun hill => ?_, fun i hi => ?_⟩
  · obtain rfl : t = raiseCmdError .illegalCmd s := by
      simpa [engineStep_illegal hb (not_exists.2 hill)] using hx.symm
    rfl
  · obtain ⟨t', hx', hcode⟩ := exec_errcode i hc
    obtain rfl : t = t' := by simpa [engineStep_decoded hb hi, hx'] using hx.symm
    exact hcode

end Sys2Proof.Machine

/-! SUPPORT. Reset, the commands straight after it, and re-issuing a command: the statements of
70_reset_and_hazards.md. -/

namespace Sys2Proof.Machine

variable {s t s' : State} {W : State → State}

/-! ## Re-issuing a command -/

/-- Writes made before change nothing: on any state that has the locations written as they were left. -/
theorem CommandWrites.repeated (hW : CommandWrites W) {P : Nat → Prop} (h : SameExcept P (W s) s') :
    SameExcept P (W s) (W s') := by
  intro a ha
  rcases hW.alike s s' a with heq | ⟨_, hs'⟩
  · exact heq
  · exact hs'.trans (h a ha)

/-- Accepting the byte in CMD again undoes the end of the completion step, but for STATUS. -/
theorem acceptCommand_endCommand_frame (e : Option CmdError) {u : State} (hc : u.errcode = 0) :
    SameExcept (fun n => n = 0x01) u (acceptCommand u.cmd (endCommand e u)) :=
  sameExcept_of_readLoc fun l _ hP => by
    cases l with
    | cmd => rfl
    | status => exact absurd rfl hP
    | errcode => exact hc.symm
    | _ => cases e <;> rfl

/-- A completed command, accepted again, finds the operands it had. -/
theorem Ended.sameOperands_accept (h : Ended s t) (c : Byte) : SameOperands s (acceptCommand c t) := by
  obtain ⟨_, hframe, _⟩ := h
  refine sameOperands_of_readRegs fun a ha => ?_
  unfold ReadRegs at ha
  rw [acceptCommand_frame c t a (by unfold StatusRegs; omega), hframe a ?_]
  simp only [StatusRegs, ResultRegs, ReportRegs, CsumRegs, OutRegs]
  omega

/-- Settles O13: the second completion makes the same writes, which the first has made already, and ends the same way
from ERR = 0. -/
theorem reissueGivesTheSameResults : Obligations.ReissueGivesTheSameResults := by
  unfold Obligations.ReissueGivesTheSameResults
  intro i s t u herr hcode hcmd hx hx'
  obtain ⟨W, e, hW, hrun⟩ := exec_operands i s
  have hend := ended_endCommand hW e s
  obtain rfl : endCommand e (W s) = t := by simpa [hrun s (.refl s)] using hx
  obtain rfl : endCommand e (W _) = u := by simpa [hrun _ (hend.sameOperands_accept _)] using hx'
  obtain ⟨hst, hcodeW, hcmdW, _⟩ := hW.keeps s
  obtain ⟨hst', _⟩ := hW.keeps (acceptCommand (encode i) (endCommand e (W s)))
  have hbyte : (W s).cmd = encode i := hcmdW.trans hcmd
  have hagain := acceptCommand_endCommand_frame e (hcodeW.trans hcode)
  rw [hbyte] at hagain
  refine ⟨endCommand_congr e (hW.repeated hagain), endCommand_bit_congr e (k := 2) ?_⟩
  obtain ⟨_, _, herr', _⟩ := acceptCommand_flags (encode i) (endCommand e (W s))
  rw [hst, hst']
  exact herr'.trans herr.symm

/-! ## Reset -/

theorem codecReset_idle (s : State) : (codecReset s).busy = false ∧ (codecReset s).done = false := by
  simp [State.busy, State.done]

theorem engineStep_idle (hb : s.busy = false) : engineStep s = .next s := by
  simp [engineStep, hb]

/-- Settles O35: the cycle is `codecReset`, after which STATUS is 0 and the engine has nothing to do. -/
theorem resetClearsEveryLocation : Obligations.ResetClearsEveryLocation := by
  unfold Obligations.ResetClearsEveryLocation
  intro p s hr
  obtain ⟨hb, hd⟩ := codecReset_idle s
  rw [busCycle_rst p s hr]
  exact ⟨fun a => codecReset_reads a s, fun a => codecReset_reads a State.reset, hb, hd, engineStep_idle hb, rfl, rfl⟩

/-- Settles O37: the reset state is what a reset cycle makes of itself, and its host has no variables. -/
theorem invariantAtReset : Obligations.InvariantAtReset :=
  inv_codecReset (s := State.reset) List.Pairwise.nil

/-! ## Commands on no input -/

theorem not_serialOk_of_empty (h : s.serLen = 0) : ¬ SerialOk s := by
  rintro ⟨h1, _⟩
  simp [h] at h1

theorem inputList_eq_nil (h : s.inLen = 0) : inputList s = [] := by
  simp [inputList, h]

theorem exec_validate_empty (h : s.serLen = 0) : exec .validate s = .next (completeCmd (setResult 0 s)) := by
  rw [exec_validate, (serialValid_eq_false s).2 (not_serialOk_of_empty h)]
  rfl

/-- The checksum of no bytes is CHECKSUM_INIT (00_scope.md R7). -/
theorem exec_csum_empty (h : s.inLen = 0) : exec .csum s = .next (completeCmd (setCsum 0xFFFF s)) := by
  rw [exec_csum_even (by simp [h]) (by simp [h]), inputList_eq_nil h]
  rfl

theorem exec_ilv_empty (h : s.inLen = 0) : exec .ilv s = .next (completeCmd (setOut [] s)) := by
  rw [exec_ilv_fits (by simp [h]), inputList_eq_nil h, interleave]

theorem exec_dilv_empty (h : s.inLen = 0) : exec .dilv s = .next (completeCmd (setOut [] s)) := by
  rw [exec_dilv_fits (by simp [h]), inputList_eq_nil h, deinterleave]

theorem exec_bcdunpack_empty (h : s.inLen = 0) : exec .bcdunpack s = .next (raiseCmdError .length s) :=
  exec_bcdunpack_other (by simp [h])

/-- DECODE detects an empty input as interleaved, and an interleaved image has 64 bytes (43_rom_image.md R180, R182). -/
theorem exec_decode_empty (h : s.inLen = 0) :
    exec .decode s = .next (raiseCmdError .format (decodeFormat true s)) :=
  exec_decode_format (by simp [h]) (by rw [inputList_eq_nil h, isInterleaved]; nofun)
    (by simp [h, imageBytes, ilImageBytes])

/-- Settles O36: acceptance leaves SER_LEN and IN_LEN at 0, so each command runs on no input. -/
theorem commandsStraightAfterReset : Obligations.CommandsStraightAfterReset := by
  unfold Obligations.CommandsStraightAfterReset
  intro s h
  have hser (c : Byte) : (acceptCommand c s).serLen = 0 := h 0x04#8
  have hlen (c : Byte) : (acceptCommand c s).inLen = 0 := h 0x05#8
  have hbad (c : Byte) : ¬ SerialOk (acceptCommand c s) := not_serialOk_of_empty (hser c)
  refine ⟨⟨_, exec_validate_empty (hser _), rfl, rfl⟩, fun i hi => ?_, ⟨_, exec_csum_empty (hlen _), rfl, rfl, rfl⟩,
    fun i hi => ?_, ⟨_, exec_bcdunpack_empty (hlen _), rfl⟩, ⟨_, exec_decode_empty (hlen _), rfl, rfl⟩⟩
  · simp only [List.mem_cons, List.not_mem_nil, or_false] at hi
    obtain rfl | rfl | rfl := hi
    · exact ⟨_, exec_bcdpack_invalid (hbad _), rfl⟩
    · exact ⟨_, exec_encode_invalid (hbad _) false, rfl⟩
    · exact ⟨_, exec_encode_invalid (hbad _) true, rfl⟩
  · simp only [List.mem_cons, List.not_mem_nil, or_false] at hi
    obtain rfl | rfl := hi
    · exact ⟨_, exec_ilv_empty (hlen _), rfl, rfl⟩
    · exact ⟨_, exec_dilv_empty (hlen _), rfl, rfl⟩

end Sys2Proof.Machine
